-- ==== Sys2Proof/Word.lean ====
section
/-! DEFINITION. The words of the block: the 32-bit command word, and the three counter and clock widths of
00_scope.md R12 at the values the spec decides for them (W_STEP = W_INT = W_CLK = 32, 92 D8; log 5). -/

namespace Sys2Proof

/-- A command word CW (30_encoding.md R62). -/
abbrev CmdWord := BitVec 32

/-- A step count or step threshold, `W_STEP` = 32 bits (R12). DESIGN CHOICE (unsafe, log 5): the width. -/
abbrev StepWord := BitVec 32

/-- An inter-step interval in microseconds, `W_INT` = 32 bits (R12). DESIGN CHOICE (unsafe, log 5): the width. -/
abbrev IntervalWord := BitVec 32

/-- A clock reading, `W_CLK` = 32 bits (R12). DESIGN CHOICE (unsafe, log 5): the width. -/
abbrev ClkWord := BitVec 32

/-- A 4-bit coil pattern: bit `i` set energises coil `i` of the motor (40_coil_driver.md R84). -/
abbrev Pattern := BitVec 4

/-- A position in the 4-entry drive sequence, 0..3 (10_state.md R26, R28; 00_scope.md R11). -/
abbrev SeqIndex := BitVec 2

end Sys2Proof
end

