-- ==== Sys2Proof/Syntax.lean ====
section
/-! DEFINITION. The seven operations (30_encoding.md R61), their operand names, and what the host sends: a command word
with its side operands (R62, R63). -/

namespace Sys2Proof

/-- A wiring variant, operand VAR of SET_WIRING (30_encoding.md R64, R66). -/
inductive Variant where
  | a
  | b
  deriving DecidableEq, Repr, Inhabited

/-- A command kind: operand KIND of PREPARE and value of the register ACT_KIND (30_encoding.md R68). -/
inductive Kind where
  | forward
  | backward
  | turnLeft
  | turnRight
  | turnLeftAlt
  | turnRightAlt
  | pause
  | invalid
  deriving DecidableEq, Repr, Inhabited

/-- The class column of 30_encoding.md R68. -/
inductive KindClass where
  | linear
  | turn
  | pause
  | invalid
  deriving DecidableEq, Repr

/-- The operations of the block, one constructor per row of opcode_table.json, with the operands the row's format and
side operands give it (30_encoding.md R61, R63, R66). -/
inductive Instr where
  | setWiring (var : Variant)
  | initOutputs
  | setCoils (right left : Pattern)
  | disableCoils
  | prepare (kind : Kind) (value : Rat) (nowUs : ClkWord)
  | advance (nowMs nowUs : ClkWord)
  | stop (nowMs : ClkWord)
  deriving DecidableEq, Repr

/-- An operation as it is delivered: the command word and the side operands beside it (30_encoding.md R62, R63).
A side operand the word's format does not name is carried and not read. -/
structure Command where
  word  : CmdWord
  value : Rat
  nowUs : ClkWord
  nowMs : ClkWord
  deriving DecidableEq, Repr

/-- What reaches the block's surroundings one at a time in the one serial stream (00_scope.md R8): an operation, or the
write of an output port by one of its other owners (10_state.md R40; log 9). -/
inductive HostEvent where
  | command (c : Command)
  | otherOwnerWrite (port value : Nat)
  deriving DecidableEq, Repr

end Sys2Proof
end

