-- ==== Sys2Proof/Config.lean ====
section
/-! DEFINITION. The configuration of a run (00_scope.md R9, R10; 10_state.md R35, R36), read-only and fixed for the run, and
the values the spec leaves open: unconstrained constants, so that no proof can rest on one. -/

namespace Sys2Proof

/-- One physical output bit `(port, bit)` (20_memory.md R47). -/
structure PortBit where
  port : Nat
  bit  : Nat
  deriving DecidableEq, Repr

/-- A wiring map: the physical bit of each logical coil line 0..7 of COIL_OUT (20_memory.md R48). -/
abbrev WiringMap := Vector PortBit 8

/-- The configuration parameters (00_scope.md R9, R10). No operation writes one (10_state.md R35). -/
structure Config where
  /-- P_FIX_REVERSED -/
  fixReversed : Bool
  /-- P_SPMM, steps per millimetre -/
  spmm        : Rat
  /-- P_SPD, steps per degree -/
  spd         : Rat
  /-- P_SPS, steps per second -/
  sps         : Rat
  /-- P_SEQ[0..3], the drive sequence table (10_state.md R36) -/
  seq         : Vector Pattern 4
  /-- P_MAP_A -/
  mapA        : WiringMap
  /-- P_MAP_B -/
  mapB        : WiringMap
  /-- P_PORTS, the port names -/
  portNames   : List Nat
  /-- W_PORT, the width of a port in bits -/
  wPort       : Nat
  /-- P_ACCEL_FRAC -/
  accelFrac   : Rat
  /-- P_ACCEL_CAP -/
  accelCap    : Nat
  /-- P_DECEL_FRAC -/
  decelFrac   : Rat
  /-- P_DECEL_CAP -/
  decelCap    : Nat
  /-- P_ACCEL_DELTA, microseconds -/
  accelDelta  : Nat
  /-- P_DECEL_DELTA, microseconds -/
  decelDelta  : Nat
  /-- P_US_PER_S. DESIGN CHOICE (safe, log 17): a natural number, any one: R10 gives a default and no legal values. -/
  usPerS      : Nat
  /-- P_MM_PER_UNIT. DESIGN CHOICE (safe, log 17): a natural number, any one: R10 gives a default and no legal values. -/
  mmPerUnit   : Nat
  deriving DecidableEq, Repr

/-- The speed-profile constants are the defaults of 00_scope.md R10. A claim that rests on a literal takes this as a
premise (91 N11). -/
def Config.hasDefaultProfile (c : Config) : Prop :=
  c.accelFrac = 2 / 5 ∧ c.accelCap = 345 ∧ c.decelFrac = 27 / 100 ∧ c.decelCap = 230 ∧
    c.accelDelta = 2 ∧ c.decelDelta = 3 ∧ c.usPerS = 1000000 ∧ c.mmPerUnit = 10

/-! ### Open values. DESIGN CHOICE (safe): constants with no body; nothing can be proved of what they are. -/

/-- The drive sequence of `Config.reference`: the source gives no table (93 U16; log 7). -/
opaque Config.openSeq : Vector Pattern 4

/-- INTERVAL after reset: "any value" (93 U11; 10_state.md R42; log 6). -/
opaque Config.intervalAtReset : IntervalWord
/-- ACCEL_UNTIL after reset: "any value" (93 U11; log 6). -/
opaque Config.accelUntilAtReset : StepWord
/-- DECEL_BELOW after reset: "any value" (93 U11; log 6). -/
opaque Config.decelBelowAtReset : StepWord
/-- SEQ_START after reset: "any value" (93 U11; log 6). -/
opaque Config.seqStartAtReset : SeqIndex
/-- Whether SEQ_STEP is +1 after reset: "any value" of the two (93 U11; log 6). -/
opaque Config.seqStepIsPlusAtReset : Bool
/-- LAST_STEP_US after reset: "any value" (93 U11; log 6). -/
opaque Config.lastStepUsAtReset : ClkWord
/-- ACT_KIND after reset: "any value" (93 U11; log 6). -/
opaque Config.actKindAtReset : Kind
/-- COIL_R after reset: no claim about it is provable before the first coil write (93 U12; log 6). -/
opaque Config.coilRAtReset : Pattern
/-- COIL_L after reset: no claim about it is provable before the first coil write (93 U12; log 6). -/
opaque Config.coilLAtReset : Pattern
/-- ACT_MS after reset: "any value" (93 U13; log 6). -/
opaque Config.actMsAtReset : ClkWord
/-- The port of this name after reset: "any value" (93 U14; log 6); its low W_PORT bits are the port's. -/
opaque Config.portAtReset : Nat → Nat

/-- The reference configuration of 95_test_vectors.md: P_SPMM = 10, P_SPD = 2, P_SPS = 1000, P_FIX_REVERSED = 0 and the
default profile. The drive sequence stays open. DESIGN CHOICE (unsafe, log 7): the two wiring maps and the two 8-bit ports. -/
def Config.reference : Config where
  fixReversed := false
  spmm := 10
  spd := 2
  sps := 1000
  seq := Config.openSeq
  mapA := #v[⟨0, 0⟩, ⟨0, 1⟩, ⟨0, 2⟩, ⟨0, 3⟩, ⟨1, 0⟩, ⟨1, 1⟩, ⟨1, 2⟩, ⟨1, 3⟩]
  mapB := #v[⟨1, 4⟩, ⟨0, 5⟩, ⟨1, 6⟩, ⟨0, 7⟩, ⟨0, 4⟩, ⟨1, 5⟩, ⟨0, 6⟩, ⟨1, 7⟩]
  portNames := [0, 1]
  wPort := 8
  accelFrac := 2 / 5
  accelCap := 345
  decelFrac := 27 / 100
  decelCap := 230
  accelDelta := 2
  decelDelta := 3
  usPerS := 1000000
  mmPerUnit := 10

end Sys2Proof
end

