-- ==== Sys2Proof/Machine/State.lean ====
section
/-! DEFINITION. The state of the block (10_state.md R20 to R42) as plain data, the reasons it stops
(60_exceptions.md R132, R133), and the state after reset (R42). -/

namespace Sys2Proof.Machine

/-- WIRING: UNBOUND at reset, then the bound variant (10_state.md R33). -/
inductive Wiring where
  | unbound
  | bound (v : Variant)
  deriving DecidableEq, Repr, Inhabited

/-- SEQ_STEP, one of +1 and -1 (10_state.md R27). -/
inductive SeqStep where
  | plus
  | minus
  deriving DecidableEq, Repr, Inhabited

/-- What ADVANCE returns (10_state.md R37; 30_encoding.md R69). -/
inductive Status where
  | idle
  | pending
  | finished
  deriving DecidableEq, Repr

/-- Why an operation faults (60_exceptions.md R132). Both are safe: the spec's treatment is a fault (93 U4, U7, U8), and
nothing can be proved of a run past one. -/
inductive Fault where
  /-- Code 1. Raised by INIT_OUTPUTS while WIRING is UNBOUND, and by a coil write (SET_COILS, DISABLE_COILS, a linear or
  turn step of ADVANCE) while WIRING is UNBOUND or OUT_INIT is false. Safe. -/
  | notInitialised
  /-- Code 2. Raised by PREPARE when the step count does not fit W_STEP bits. Safe. -/
  | stepCountOverflow
  deriving DecidableEq, Repr

/-- Why an operation or a run is refused (60_exceptions.md R133). All are safe: the spec refuses there. -/
inductive Refusal where
  /-- No meaning written. Raised by no arm: every operation has its meaning. Safe. -/
  | notModelled (mnemonic : String)
  /-- Code 1. Raised by the decoder: opcode 0x0 or 0x8 to 0xF. Safe. -/
  | reservedOpcode
  /-- Code 2. Raised by the decoder: a bit outside the format's fields is 1. Safe. -/
  | reservedField
  /-- Code 3. Raised by SET_WIRING when a variant is bound. Safe. -/
  | wiringRebind
  /-- Code 4. Raised by INIT_OUTPUTS when the outputs are initialised. Safe. -/
  | outputsReinit
  /-- Code 5. Raised by the run, before an operation: a parameter outside its legal values. Safe. -/
  | badConfiguration
  deriving DecidableEq, Repr

/-- The mark FAULT: the fault's code, and the faulting operation with its side operands (60_exceptions.md R132, R134). -/
structure FaultRecord where
  reason    : Fault
  operation : Option Command
  deriving DecidableEq, Repr

/-- The mark REFUSED: the refusal's code and the command word, none for a refused configuration
(60_exceptions.md R133, R135). -/
structure RefusalRecord where
  reason : Refusal
  word   : Option CmdWord
  deriving DecidableEq, Repr

/-- The output ports, one `(name, value)` entry per port of P_PORTS (10_state.md R40; 20_memory.md R47; log 8). -/
abbrev Ports := List (Nat × Nat)

/-- The state of the block. The register names are those of 10_state.md R21. -/
structure State where
  /-- the configuration, read-only (R35) -/
  cfg        : Config
  /-- STEPS (R22) -/
  steps      : StepWord
  /-- INTERVAL (R23) -/
  interval   : IntervalWord
  /-- ACCEL_UNTIL (R24) -/
  accelUntil : StepWord
  /-- DECEL_BELOW (R25) -/
  decelBelow : StepWord
  /-- SEQ_START (R26) -/
  seqStart   : SeqIndex
  /-- SEQ_STEP (R27) -/
  seqStep    : SeqStep
  /-- SEQ_IDX (R28) -/
  seqIdx     : SeqIndex
  /-- LAST_STEP_US (R29) -/
  lastStepUs : ClkWord
  /-- ACT_KIND (R30) -/
  actKind    : Kind
  /-- COIL_R (R31) -/
  coilR      : Pattern
  /-- COIL_L (R31) -/
  coilL      : Pattern
  /-- ACT_MS (R32) -/
  actMs      : ClkWord
  /-- WIRING (R33) -/
  wiring     : Wiring
  /-- OUT_INIT (R34) -/
  outInit    : Bool
  /-- PORT[p] (R40) -/
  ports      : Ports
  /-- FAULT (R41) -/
  fault      : Option FaultRecord
  /-- REFUSED (R41) -/
  refused    : Option RefusalRecord
  /-- the model's: what the host has issued and the block not yet received, oldest first (R38; log 1) -/
  stream     : List HostEvent
  /-- the model's: what the last completed operation returned to the host (R37; log 3) -/
  result     : Option Status
  deriving DecidableEq, Repr

/-- Reset of a run with this configuration (10_state.md R42; 70_reset_and_hazards.md R146). Where R42 says "unspecified" the
value is an unconstrained constant of Config (log 6). SEQ_IDX = 0 is the spec's decision D18 (log 15). -/
def State.resetWith (c : Config) : State where
  cfg := c
  steps := 0
  interval := Config.intervalAtReset
  accelUntil := Config.accelUntilAtReset
  decelBelow := Config.decelBelowAtReset
  seqStart := Config.seqStartAtReset
  seqStep := if Config.seqStepIsPlusAtReset then .plus else .minus
  seqIdx := 0
  lastStepUs := Config.lastStepUsAtReset
  actKind := Config.actKindAtReset
  coilR := Config.coilRAtReset
  coilL := Config.coilLAtReset
  actMs := Config.actMsAtReset
  wiring := .unbound
  outInit := false
  ports := c.portNames.map fun p => (p, Config.portAtReset p % 2 ^ c.wPort)
  fault := none
  refused := none
  stream := []
  result := none

/-- The machine right after reset, in the reference configuration (log 7). -/
def State.reset : State := State.resetWith Config.reference

end Sys2Proof.Machine
end

