-- ==== Sys2Proof/Machine/Ops.lean ====
section
/-! DEFINITION. The named operations over registers and output ports: port read and masked write (20_memory.md R48, R49),
the register updates the meanings use, the coil-write primitive (40_coil_driver.md R85), and the marks of a fault or a refusal
(60_exceptions.md R134, R135). The block has no trap entry (60 R137): recording a mark is all that stopping does. -/

namespace Sys2Proof.Machine

/-- The outcome of one operation of the block. -/
abbrev Result := Host.Outcome State Fault Refusal

/-- The next stage of an operation, reached only if the stage before it gave a next state. -/
def andThen (o : Result) (f : State → Result) : Result :=
  match o with
  | .next t => f t
  | .fault r => .fault r
  | .refused r => .refused r

/-! ### Output ports -/

/-- `v AND NOT m` (20_memory.md R49). -/
def andNot (v m : Nat) : Nat := v ^^^ (v &&& m)

/-- `PortRead(p)` (00_scope.md R15); 0 for a name that is no port. -/
def portRead (ps : Ports) (p : Nat) : Nat :=
  match ps with
  | [] => 0
  | (q, v) :: rest => if q = p then v else portRead rest p

/-- `PortWrite(p, v)` (00_scope.md R15); a name that is no port writes nothing. -/
def portWrite (ps : Ports) (p v : Nat) : Ports := ps.map fun c => if c.1 = p then (c.1, v) else c

/-- The numbers of the 8 logical coil lines (20_memory.md R48). -/
def coilLines : List (Fin 8) := [0, 1, 2, 3, 4, 5, 6, 7]

/-- `P_MAP_V(i)`, the physical bit of line `i` (20_memory.md R48). -/
def lineBit (m : WiringMap) (i : Fin 8) : PortBit := m[i]

/-- `M` of 20_memory.md R49: the bits of port `p` that the map names. -/
def lineMask (m : WiringMap) (p : Nat) : Nat :=
  coilLines.foldr (fun i acc => if (lineBit m i).port = p then acc ||| 2 ^ (lineBit m i).bit else acc) 0

/-- `I` of 20_memory.md R49: COIL_OUT's bits at their places on port `p`. -/
def lineImage (m : WiringMap) (out : BitVec 8) (p : Nat) : Nat :=
  coilLines.foldr (fun i acc => if (lineBit m i).port = p ∧ out[i] = true then acc ||| 2 ^ (lineBit m i).bit else acc) 0

/-- The masked read-modify-write of every port (20_memory.md R49), as one transition (R50). -/
def maskedWrite (m : WiringMap) (out : BitVec 8) (ps : Ports) : Ports :=
  ps.map fun c => (c.1, andNot c.2 (lineMask m c.1) ||| lineImage m out c.1)

/-- The port space is well formed: exactly the ports of P_PORTS, in order, each value of W_PORT bits (20_memory.md R47). -/
def portsWf (c : Config) (ps : Ports) : Bool :=
  decide (ps.map Prod.fst = c.portNames) && ps.all fun e => decide (e.2 < 2 ^ c.wPort)

/-- `P_MAP_V` (20_memory.md R48). -/
def wiringMap (c : Config) (v : Variant) : WiringMap :=
  match v with
  | .a => c.mapA
  | .b => c.mapB

/-- The bits of port `p` that are coil bits now: none while no variant is bound. -/
def coilMask (s : State) (p : Nat) : Nat :=
  match s.wiring with
  | .unbound => 0
  | .bound v => lineMask (wiringMap s.cfg v) p

/-- `COIL_OUT = COIL_L, COIL_R` concatenated, COIL_L in the high bits (10_state.md R31). -/
def coilOut (s : State) : BitVec 8 := s.coilL ++ s.coilR

/-- `SEQ(i)` (40_coil_driver.md R90). -/
def seqAt (c : Config) (i : SeqIndex) : Pattern := c.seq[i.toNat]'i.isLt

/-! ### Register updates -/

/-- What the operation returns to the host (00_scope.md R15): a status for ADVANCE, nothing for every other (10_state.md R37). -/
def putResult (s : State) (r : Option Status) : State := { s with result := r }

/-- WIRING <- v (40_coil_driver.md R81). -/
def putWiring (s : State) (v : Variant) : State := { s with wiring := .bound v }

/-- OUT_INIT <- true (40_coil_driver.md R83). -/
def putOutInit (s : State) : State := { s with outInit := true }

/-- COIL_R <- r, COIL_L <- l, and the ports after the masked write (40_coil_driver.md R85). -/
def putCoils (s : State) (r l : Pattern) (ps : Ports) : State := { s with coilR := r, coilL := l, ports := ps }

/-- INTERVAL <- v (41_action_engine.md R101, R109). -/
def putInterval (s : State) (v : IntervalWord) : State := { s with interval := v }

/-- SEQ_IDX <- i (41_action_engine.md R112). -/
def putIndex (s : State) (i : SeqIndex) : State := { s with seqIdx := i }

/-- SEQ_START <- i, SEQ_STEP <- d (41_action_engine.md R100). -/
def putDirection (s : State) (i : SeqIndex) (d : SeqStep) : State := { s with seqStart := i, seqStep := d }

/-- ACT_KIND, STEPS, ACCEL_UNTIL, DECEL_BELOW and LAST_STEP_US of an armed action (41_action_engine.md R98, R99, R102 to R104). -/
def putAction (s : State) (k : Kind) (n u d : StepWord) (us : ClkWord) : State :=
  { s with actKind := k, steps := n, accelUntil := u, decelBelow := d, lastStepUs := us }

/-- STEPS <- n (41_action_engine.md R113, R121). -/
def putSteps (s : State) (n : StepWord) : State := { s with steps := n }

/-- LAST_STEP_US <- us, ACT_MS <- ms (41_action_engine.md R114, R115). -/
def putStamps (s : State) (us ms : ClkWord) : State := { s with lastStepUs := us, actMs := ms }

/-- PORT <- ps. -/
def putPorts (s : State) (ps : Ports) : State := { s with ports := ps }

/-- The stream after its oldest event was received (log 1). -/
def dropEvent (s : State) : State := { s with stream := s.stream.tail }

/-- The stream with `e` in front: the next event received. -/
def pushEvent (s : State) (e : HostEvent) : State := { s with stream := e :: s.stream }

/-! ### The coil write -/

/-- `SetCoilsInternal(r, l)` (40_coil_driver.md R85): the one operation through which coils and coil bits are written (R79). -/
def setCoilsInternal (r l : Pattern) (s : State) : Result :=
  match s.wiring with
  | .unbound => .fault .notInitialised
  | .bound v =>
    if s.outInit then .next (putCoils s r l (maskedWrite (wiringMap s.cfg v) (l ++ r) s.ports))
    else .fault .notInitialised

/-- A write of port `p` by one of its other owners: the bits of the bound map keep their value, since only the Coil Driver
writes them (40_coil_driver.md R79; 90 C7), every other bit takes the owner's. DEDUCED (unsafe, log 9). While no variant is bound the
owner may write a bit that becomes a coil line later, and that level then stands until the first coil write, where the spec
leaves it open: DESIGN CHOICE (unsafe, log 18). -/
def otherOwnerWrite (p value : Nat) (s : State) : State :=
  putPorts s (portWrite s.ports p
    (andNot (value % 2 ^ s.cfg.wPort) (coilMask s p) ||| (portRead s.ports p &&& coilMask s p)))

/-! ### The marks -/

/-- The operation at the head of the host's stream. -/
def headCommand (s : State) : Option Command :=
  match s.stream with
  | .command c :: _ => some c
  | _ => none

/-- FAULT <- the fault's code, with the operation it stands on (60_exceptions.md R132, R134). Nothing else is written. -/
def recordFault (s : State) (r : Fault) : State := { s with fault := some ⟨r, headCommand s⟩ }

/-- The word a refusal records: none for a refused configuration, which stands on no operation (60_exceptions.md R133). -/
def refusedWord (s : State) (r : Refusal) : Option CmdWord :=
  match r with
  | .badConfiguration => none
  | _ => (headCommand s).map Command.word

/-- REFUSED is set and records the refusal's code and the word (60_exceptions.md R133, R135). Nothing else is written. -/
def recordRefusal (s : State) (r : Refusal) : State := { s with refused := some ⟨r, refusedWord s r⟩ }

end Sys2Proof.Machine
end

