-- ==== Sys2Proof/Machine/Operands.lean ====
section
/-! DEFINITION. What an operand of PREPARE means: the kind's class, mirror and direction (30_encoding.md R68; 41_action_engine.md
R94, R100), and the counts, thresholds and base interval computed from VALUE and the configuration in exact rational
arithmetic (00_scope.md R13; 41 R95, R96, R101 to R103; log 13). -/

namespace Sys2Proof.Machine

/-- `class(k)` (30_encoding.md R68). -/
def kindClass : Kind → KindClass
  | .forward => .linear
  | .backward => .linear
  | .turnLeft => .turn
  | .turnRight => .turn
  | .turnLeftAlt => .turn
  | .turnRightAlt => .turn
  | .pause => .pause
  | .invalid => .invalid

/-- `MIRROR(k)` (30_encoding.md R68; 41_action_engine.md R94). -/
def mirror : Kind → Kind
  | .forward => .backward
  | .backward => .forward
  | .turnLeft => .turnRight
  | .turnRight => .turnLeft
  | .turnLeftAlt => .turnRightAlt
  | .turnRightAlt => .turnLeftAlt
  | .pause => .pause
  | .invalid => .invalid

/-- The kind PREPARE works with: the mirrored one under P_FIX_REVERSED (41_action_engine.md R94). -/
def effectiveKind (c : Config) (k : Kind) : Kind := if c.fixReversed then mirror k else k

/-- SEQ_START and SEQ_STEP of a kind; none where they stay unchanged (41_action_engine.md R100). -/
def direction : Kind → Option (SeqIndex × SeqStep)
  | .forward => some (0, .plus)
  | .backward => some (3, .minus)
  | .turnLeft => some (3, .minus)
  | .turnRight => some (0, .plus)
  | .turnLeftAlt => some (3, .minus)
  | .turnRightAlt => some (0, .plus)
  | .pause => none
  | .invalid => none

/-- `abs(q)` (00_scope.md R15). -/
def absRat (q : Rat) : Rat := if q < 0 then -q else q

/-- `min(a, b)` (00_scope.md R15). -/
def minRat (a b : Rat) : Rat := if a ≤ b then a else b

/-- `trunc(q)` of a `q >= 0`, as a count (00_scope.md R15). Every quantity truncated is `>= 0` in a legal configuration;
a negative one, which only a refused configuration gives, counts as 0 (log 14). -/
def truncNat (q : Rat) : Nat := q.floor.toNat

/-- The step count `n` of an action of kind `k` (41_action_engine.md R95, R96, R97). -/
def stepCount (c : Config) (k : Kind) (value : Rat) : Nat :=
  match kindClass k with
  | .linear => truncNat (absRat value * (c.mmPerUnit : Rat) * c.spmm)
  | .pause => truncNat (absRat value * (c.mmPerUnit : Rat) * c.spmm)
  | .turn => truncNat (absRat value * c.spd)
  | .invalid => 0

/-- `floor(P_US_PER_S / P_SPS)` (41_action_engine.md R101). -/
def baseInterval (c : Config) : Nat := truncNat ((c.usPerS : Rat) / c.sps)

/-- `trunc(n - min(P_ACCEL_FRAC * n, P_ACCEL_CAP))` (41_action_engine.md R102). -/
def accelThreshold (c : Config) (n : Nat) : Nat :=
  truncNat ((n : Rat) - minRat (c.accelFrac * (n : Rat)) (c.accelCap : Rat))

/-- `trunc(min(P_DECEL_FRAC * n, P_DECEL_CAP))` (41_action_engine.md R103). -/
def decelThreshold (c : Config) (n : Nat) : Nat := truncNat (minRat (c.decelFrac * (n : Rat)) (c.decelCap : Rat))

/-- `elapsed(now, then)`: the modular clock difference (00_scope.md R16). -/
def elapsed (now last : ClkWord) : ClkWord := now - last

/-- SEQ_STEP as a signed integer (10_state.md R27). -/
def seqStepInt : SeqStep → Int
  | .plus => 1
  | .minus => -1

/-- The index move `j = SEQ_IDX + SEQ_STEP`, wrapped to SEQ_START outside 0..3 (41_action_engine.md R112). -/
def nextIndex (idx start : SeqIndex) (d : SeqStep) : SeqIndex :=
  let j : Int := (idx.toNat : Int) + seqStepInt d
  if j < 0 ∨ 3 < j then start else BitVec.ofInt 2 j

end Sys2Proof.Machine
end

