-- ==== Sys2Proof/Machine/Flags.lean ====
section
/-! DEFINITION. The block has no condition flags (10_state.md R37). What an operation computes besides registers is ADVANCE's
status: its codes (30_encoding.md R69) and its value after a step (41_action_engine.md R116). The codes of faults and refusals
stand beside it (60_exceptions.md R132, R133). -/

namespace Sys2Proof.Machine

/-- The status codes, 2 bits (30_encoding.md R69). -/
def statusCode : Status → BitVec 2
  | .idle => 0
  | .pending => 1
  | .finished => 2

/-- The status of an ADVANCE that took a step, from STEPS after the decrement (41_action_engine.md R116). -/
def stepStatus (stepsAfter : StepWord) : Status := if stepsAfter = 0 then .finished else .pending

/-- The fault codes (60_exceptions.md R132). -/
def faultCode : Fault → Nat
  | .notInitialised => 1
  | .stepCountOverflow => 2

/-- The refusal codes (60_exceptions.md R133); 0 for what is no refusal of the spec. -/
def refusalCode : Refusal → Nat
  | .reservedOpcode => 1
  | .reservedField => 2
  | .wiringRebind => 3
  | .outputsReinit => 4
  | .badConfiguration => 5
  | _ => 0

end Sys2Proof.Machine
end

