-- ==== Sys2Proof/Machine/Coil.lean ====
section
/-! DEFINITION. The Coil Driver's operations: SET_WIRING, INIT_OUTPUTS, SET_COILS (40_coil_driver.md), and DISABLE_COILS
(41_action_engine.md R124). -/

namespace Sys2Proof.Machine

/-- SET_WIRING (40_coil_driver.md R81, R82). -/
def execSetWiring (var : Variant) (s : State) : Result :=
  match s.wiring with
  | .unbound => .next (putResult (putWiring s var) none)
  | .bound _ => .refused .wiringRebind

/-- INIT_OUTPUTS (40_coil_driver.md R83). No port is written, so a coil line keeps the level its port bit had, where the spec
leaves the level open until the first coil write: DESIGN CHOICE (unsafe, log 18). -/
def execInitOutputs (s : State) : Result :=
  match s.wiring with
  | .unbound => .fault .notInitialised
  | .bound _ => if s.outInit then .refused .outputsReinit else .next (putResult (putOutInit s) none)

/-- SET_COILS (40_coil_driver.md R88). -/
def execSetCoils (right left : Pattern) (s : State) : Result :=
  andThen (setCoilsInternal right left s) fun t => .next (putResult t none)

/-- DISABLE_COILS (41_action_engine.md R124). -/
def execDisableCoils (s : State) : Result :=
  andThen (setCoilsInternal 0 0 s) fun t => .next (putResult t none)

end Sys2Proof.Machine
end

