-- ==== Sys2Proof/Machine/Engine.lean ====
section
/-! DEFINITION. The Action Execution Engine: PREPARE, ADVANCE, STOP (41_action_engine.md). -/

namespace Sys2Proof.Machine

/-- SEQ_START and SEQ_STEP of an armed action (41_action_engine.md R100). -/
def armDirection (k : Kind) (s : State) : State :=
  match direction k with
  | some (i, d) => putDirection s i d
  | none => s

/-- What PREPARE writes for an action of kind `k` (already mirrored) and `n` steps (41_action_engine.md R93, R98 to R104).
SEQ_IDX, the coils and ACT_MS are not written (R123). -/
def arm (k : Kind) (n : Nat) (nowUs : ClkWord) (s : State) : State :=
  let s := putAction s k (BitVec.ofNat 32 n) (BitVec.ofNat 32 (accelThreshold s.cfg n))
    (BitVec.ofNat 32 (decelThreshold s.cfg n)) nowUs
  let s := armDirection k s
  putInterval s (BitVec.ofNat 32 (baseInterval s.cfg))

/-- PREPARE (41_action_engine.md R93). -/
def execPrepare (kind : Kind) (value : Rat) (nowUs : ClkWord) (s : State) : Result :=
  let k := effectiveKind s.cfg kind
  let n := stepCount s.cfg k value
  if 2 ^ 32 ≤ n then .fault .stepCountOverflow
  else .next (putResult (arm k n nowUs s) none)

/-- INTERVAL after the ramp adjustment of a step, from STEPS before the decrement; the acceleration test first, the result
modulo 2^W_INT (41_action_engine.md R109; log 11). -/
def rampedInterval (s : State) : IntervalWord :=
  if s.accelUntil < s.steps then s.interval - BitVec.ofNat 32 s.cfg.accelDelta
  else if s.steps < s.decelBelow then s.interval + BitVec.ofNat 32 s.cfg.decelDelta
  else s.interval

/-- The coil drive of a step, at SEQ_IDX before its move (41_action_engine.md R110, R111). -/
def driveCoils (s : State) : Result :=
  match kindClass s.actKind with
  | .linear => setCoilsInternal (seqAt s.cfg (3 - s.seqIdx)) (seqAt s.cfg s.seqIdx) s
  | .turn => setCoilsInternal (seqAt s.cfg s.seqIdx) (seqAt s.cfg s.seqIdx) s
  | .pause => .next s
  | .invalid => .next s

/-- The index move of a step: linear and turn actions only (41_action_engine.md R112). -/
def moveIndex (s : State) : State :=
  match kindClass s.actKind with
  | .linear => putIndex s (nextIndex s.seqIdx s.seqStart s.seqStep)
  | .turn => putIndex s (nextIndex s.seqIdx s.seqStart s.seqStep)
  | .pause => s
  | .invalid => s

/-- The end of a step: decrement, timestamps, status (41_action_engine.md R113 to R116). -/
def finishStep (nowMs nowUs : ClkWord) (s : State) : State :=
  let s := putSteps s (s.steps - 1)
  let s := putStamps s nowUs nowMs
  putResult s (some (stepStatus s.steps))

/-- One step, in the order of 41_action_engine.md R107. -/
def takeStep (nowMs nowUs : ClkWord) (s : State) : Result :=
  andThen (driveCoils (putInterval s (rampedInterval s))) fun t => .next (finishStep nowMs nowUs (moveIndex t))

/-- ADVANCE (41_action_engine.md R105): idle, the timing gate (R106), or one step. -/
def execAdvance (nowMs nowUs : ClkWord) (s : State) : Result :=
  if s.steps = 0 then .next (putResult s (some .idle))
  else if (elapsed nowUs s.lastStepUs).toNat < s.interval.toNat then .next (putResult s (some .pending))
  else takeStep nowMs nowUs s

/-- STOP (41_action_engine.md R121): NOW_MS is carried and not read. -/
def execStop (_nowMs : ClkWord) (s : State) : Result := .next (putResult (putSteps s 0) none)

end Sys2Proof.Machine
end

