-- ==== Sys2Proof/Machine/Dispatch.lean ====
section
/-! DEFINITION. One arm per operation (30_encoding.md R67): the meaning of each. -/

namespace Sys2Proof.Machine

def exec (i : Instr) (s : State) : Host.Outcome State Fault Refusal :=
  match i with
  | .setWiring var => Sys2Proof.Machine.execSetWiring var s
  | .initOutputs => Sys2Proof.Machine.execInitOutputs s
  | .setCoils right left => Sys2Proof.Machine.execSetCoils right left s
  | .disableCoils => Sys2Proof.Machine.execDisableCoils s
  | .prepare kind value nowUs => Sys2Proof.Machine.execPrepare kind value nowUs s
  | .advance nowMs nowUs => Sys2Proof.Machine.execAdvance nowMs nowUs s
  | .stop nowMs => Sys2Proof.Machine.execStop nowMs s

end Sys2Proof.Machine
end

