-- ==== Sys2Proof/WellFormed.lean ====
section
/-! DEFINITION. What is well formed: an instruction (its operands' types already bound every field), a command word by the
format of its opcode (30_encoding.md R65), and a configuration by the legal values of 10_state.md R35. -/

namespace Sys2Proof

/-- Every value of every operand of every operation is legal: VAR is one bit, the patterns are 4 bits, KIND is 3 bits and
all eight codes are commands (30_encoding.md R68), VALUE is any rational and the readings any `W_CLK`-bit words (R63). The
types say all of it, so each constructor's check is `true`; one match arm each, so that a new operation must say its own. -/
def Instr.wf : Instr → Bool
  | .setWiring _ => true
  | .initOutputs => true
  | .setCoils _ _ => true
  | .disableCoils => true
  | .prepare _ _ _ => true
  | .advance _ _ => true
  | .stop _ => true

/-- The opcode is one of 0x1 to 0x7 (30_encoding.md R67). -/
def Command.opcodeAssigned (c : Command) : Bool :=
  let op := c.word.extractLsb' 0 4
  0 < op && op < 8

/-- The bits of the word that the opcode's format names or ignores; every other bit must be 0 (30_encoding.md R65, R71). -/
def formatBits (op : BitVec 4) : CmdWord :=
  match op with
  | 0x1 => 0x0000001F#32
  | 0x3 => 0x00FFFF0F#32
  | 0x5 => 0x0000007F#32
  | _ => 0x0000000F#32

/-- No reserved bit of the word is set (30_encoding.md R65, R70). -/
def Command.reservedClear (c : Command) : Bool :=
  c.word &&& ~~~ formatBits (c.word.extractLsb' 0 4) == 0

/-- A word that selects an operation: assigned opcode, reserved bits clear (30_encoding.md R70). -/
def Command.wf (c : Command) : Bool := c.opcodeAssigned && c.reservedClear

end Sys2Proof
end

