-- ==== Sys2Proof/Decode.lean ====
section
/-! DEFINITION. The decoder of 30_encoding.md R70, total on every command word with any side operands, and the encoder written
from the formats of R64, R65 and the code tables of R67, R68. -/

namespace Sys2Proof

/-- The decoder's two refusals (60_exceptions.md R133). -/
inductive DecodeRefusal where
  | reservedOpcode
  | reservedField
  deriving DecidableEq, Repr

/-- KIND codes 0..7 (30_encoding.md R68). -/
def kindOfCode (k : BitVec 3) : Kind :=
  match k.toNat with
  | 0 => .forward
  | 1 => .backward
  | 2 => .turnLeft
  | 3 => .turnRight
  | 4 => .turnLeftAlt
  | 5 => .turnRightAlt
  | 6 => .pause
  | _ => .invalid

/-- The code of a kind (30_encoding.md R68). -/
def codeOfKind : Kind → BitVec 3
  | .forward => 0
  | .backward => 1
  | .turnLeft => 2
  | .turnRight => 3
  | .turnLeftAlt => 4
  | .turnRightAlt => 5
  | .pause => 6
  | .invalid => 7

/-- VAR: 0 is A, 1 is B (30_encoding.md R66). -/
def variantOfBit (b : Bool) : Variant := if b then .b else .a

/-- The bit of a variant (30_encoding.md R66). -/
def bitOfVariant : Variant → BitVec 1
  | .a => 0
  | .b => 1

/-- The instruction, unless a reserved bit is set. -/
def unlessReserved (reserved : Bool) (i : Instr) : Except DecodeRefusal Instr :=
  if reserved then .error .reservedField else .ok i

/-- The arms of `decode(CW)` (30_encoding.md R70), by the opcode. -/
def decodeOpcode (op : Nat) (w : CmdWord) (value : Rat) (nowUs nowMs : ClkWord) : Except DecodeRefusal Instr :=
  match op with
  | 0x1 => unlessReserved (w.extractLsb' 5 27 != 0) (.setWiring (variantOfBit (w.getLsbD 4)))
  | 0x2 => unlessReserved (w.extractLsb' 4 28 != 0) .initOutputs
  | 0x3 => unlessReserved (w.extractLsb' 24 8 != 0 || w.extractLsb' 4 4 != 0)
      (.setCoils (w.extractLsb' 8 4) (w.extractLsb' 16 4))
  | 0x4 => unlessReserved (w.extractLsb' 4 28 != 0) .disableCoils
  | 0x5 => unlessReserved (w.extractLsb' 7 25 != 0) (.prepare (kindOfCode (w.extractLsb' 4 3)) value nowUs)
  | 0x6 => unlessReserved (w.extractLsb' 4 28 != 0) (.advance nowMs nowUs)
  | 0x7 => unlessReserved (w.extractLsb' 4 28 != 0) (.stop nowMs)
  | _ => .error .reservedOpcode

/-- `decode(CW)` of 30_encoding.md R70, beside it the side operands of R63. -/
def decode (c : Command) : Except DecodeRefusal Instr :=
  decodeOpcode (c.word.extractLsb' 0 4).toNat c.word c.value c.nowUs c.nowMs

/-- The command word of an operation: the formats N, W, C, K of 30_encoding.md R65, the ignored bits of SET_COILS 0. -/
def encodeWord : Instr → CmdWord
  | .setWiring v => 0#27 ++ bitOfVariant v ++ 0x1#4
  | .initOutputs => 0#28 ++ 0x2#4
  | .setCoils r l => 0#12 ++ l ++ 0#4 ++ r ++ 0#4 ++ 0x3#4
  | .disableCoils => 0#28 ++ 0x4#4
  | .prepare k _ _ => 0#25 ++ codeOfKind k ++ 0x5#4
  | .advance _ _ => 0#28 ++ 0x6#4
  | .stop _ => 0#28 ++ 0x7#4

/-- The operation as the host delivers it: its word and its side operands; a side operand it does not name is 0. -/
def encode (i : Instr) : Command :=
  match i with
  | .prepare _ v us => ⟨encodeWord i, v, us, 0⟩
  | .advance ms us => ⟨encodeWord i, 0, us, ms⟩
  | .stop ms => ⟨encodeWord i, 0, 0, ms⟩
  | .setWiring _ => ⟨encodeWord i, 0, 0, 0⟩
  | .initOutputs => ⟨encodeWord i, 0, 0, 0⟩
  | .setCoils _ _ => ⟨encodeWord i, 0, 0, 0⟩
  | .disableCoils => ⟨encodeWord i, 0, 0, 0⟩

/-- The match column of 30_encoding.md R67 (and of opcode_table.json). -/
def rowMatch : Instr → CmdWord
  | .setWiring _ => 0x00000001
  | .initOutputs => 0x00000002
  | .setCoils _ _ => 0x00000003
  | .disableCoils => 0x00000004
  | .prepare _ _ _ => 0x00000005
  | .advance _ _ => 0x00000006
  | .stop _ => 0x00000007

/-- The mask column of 30_encoding.md R67 (and of opcode_table.json). -/
def rowMask : Instr → CmdWord
  | .setWiring _ => 0xFFFFFFEF
  | .initOutputs => 0xFFFFFFFF
  | .setCoils _ _ => 0xFF0000FF
  | .disableCoils => 0xFFFFFFFF
  | .prepare _ _ _ => 0xFFFFFF8F
  | .advance _ _ => 0xFFFFFFFF
  | .stop _ => 0xFFFFFFFF

/-- The bits of an operation's word that the decoder ignores (30_encoding.md R71). -/
def ignoredBits : Instr → CmdWord
  | .setWiring _ => 0
  | .initOutputs => 0
  | .setCoils _ _ => 0x00F0F000
  | .disableCoils => 0
  | .prepare _ _ _ => 0
  | .advance _ _ => 0
  | .stop _ => 0

/-- A command word alone, every side operand 0: how the host's table asks for an instruction (log 1). The bits of `w` above
`nbits` count as 0; the block's one word is 32 bits (30_encoding.md R74). -/
def tableCommand (nbits w : Nat) : Command := ⟨BitVec.ofNat 32 (w % 2 ^ nbits), 0, 0, 0⟩

/-- What the decoder reads from a table word, `none` where it refuses. -/
def decodeTableWord (nbits w : Nat) : Option Instr := (decode (tableCommand nbits w)).toOption

end Sys2Proof
end

