-- ==== Sys2Proof/Machine/Legal.lean ====
section
/-! DEFINITION. The legal values of the configuration (10_state.md R35; 00_scope.md R9); one check per line of R35's table. -/

namespace Sys2Proof.Machine

/-- P_SPMM >= 0 and P_SPD >= 0. -/
def ratesLegal (c : Config) : Bool := decide (0 ≤ c.spmm) && decide (0 ≤ c.spd)

/-- P_SPS > 0. -/
def speedLegal (c : Config) : Bool := decide (0 < c.sps)

/-- The base interval fits W_INT bits. -/
def baseIntervalLegal (c : Config) : Bool := decide (baseInterval c < 2 ^ 32)

/-- A wiring map is injective. -/
def mapInjective (m : WiringMap) : Bool := decide m.toList.Nodup

/-- A wiring map stays inside P_PORTS x 0..W_PORT-1. -/
def mapInside (c : Config) (m : WiringMap) : Bool :=
  m.toList.all fun b => decide (b.port ∈ c.portNames) && decide (b.bit < c.wPort)

/-- P_PORTS is a set: no name stands twice. -/
def portsLegal (c : Config) : Bool := decide c.portNames.Nodup

/-- `0 <= f <= 1` for P_ACCEL_FRAC and P_DECEL_FRAC. -/
def fractionsLegal (c : Config) : Bool :=
  decide (0 ≤ c.accelFrac) && decide (c.accelFrac ≤ 1) && decide (0 ≤ c.decelFrac) && decide (c.decelFrac ≤ 1)

/-- P_ACCEL_DELTA and P_DECEL_DELTA fit W_INT bits. -/
def deltasLegal (c : Config) : Bool := decide (c.accelDelta < 2 ^ 32) && decide (c.decelDelta < 2 ^ 32)

/-- Every parameter has a legal value (10_state.md R35). P_FIX_REVERSED, P_SEQ and the caps are legal by their types.
R35 has no row for P_US_PER_S and P_MM_PER_UNIT: every natural number, 0 included, is admitted, DESIGN CHOICE (safe, log 17);
the base interval that P_US_PER_S gives has to fit all the same. -/
def configLegal (c : Config) : Bool :=
  ratesLegal c && speedLegal c && baseIntervalLegal c && mapInjective c.mapA && mapInjective c.mapB &&
    mapInside c c.mapA && mapInside c c.mapB && portsLegal c && fractionsLegal c && deltasLegal c

end Sys2Proof.Machine
end

