-- ==== Sys2Proof/Machine/Fetch.lean ====
section
/-! DEFINITION. What the block receives next from the host's serial stream (00_scope.md R7, R8; 10_state.md R38), with the
checks that stand before every operation (60_exceptions.md R134 to R136). -/

namespace Sys2Proof.Machine

/-- What happens next. -/
inductive Fetched where
  /-- the block has faulted: it takes no further step (60 R134) -/
  | faulted (r : Fault)
  /-- the run is refused: by an earlier operation, by its configuration, or by the decoder (60 R135, R136) -/
  | refused (r : Refusal)
  /-- the host has issued nothing (00 R7; log 2) -/
  | nothing
  /-- another owner writes a port (10 R40; log 9) -/
  | otherOwner (port value : Nat)
  /-- an operation to execute -/
  | run (i : Instr)
  deriving DecidableEq, Repr

/-- The decoder's refusal as the block's (60_exceptions.md R133). -/
def refusalOfDecode : DecodeRefusal → Refusal
  | .reservedOpcode => .reservedOpcode
  | .reservedField => .reservedField

/-- The oldest event of the stream. -/
def fetchEvent (s : State) : Fetched :=
  match s.stream with
  | [] => .nothing
  | .otherOwnerWrite p v :: _ => .otherOwner p v
  | .command c :: _ =>
    match decode c with
    | .ok i => .run i
    | .error e => .refused (refusalOfDecode e)

/-- The marks first (they are never cleared, 60 R134, R135), then the configuration (60 R135; log 10), then the stream. -/
def fetch (s : State) : Fetched :=
  match s.fault, s.refused with
  | some f, _ => .faulted f.reason
  | none, some r => .refused r.reason
  | none, none => if configLegal s.cfg then fetchEvent s else .refused .badConfiguration

end Sys2Proof.Machine
end

