-- ==== Sys2Proof/Machine/Step.lean ====
section
/-! DEFINITION. One step of the machine: the next event of the host's stream takes effect, whole (00_scope.md R7;
20_memory.md R56). -/

namespace Sys2Proof.Machine

/-- One step. With nothing issued the block does nothing (00 R7; log 2). -/
def step (s : State) : Host.Outcome State Fault Refusal :=
  match fetch s with
  | .faulted r => .fault r
  | .refused r => .refused r
  | .nothing => .next s
  | .otherOwner p v => .next (otherOwnerWrite p v (dropEvent s))
  | .run i => exec i (dropEvent s)

/-- `s` with the operation of a table word, its side operands 0, as the next event of the host's stream: the very next step
receives it (log 1). The marks and the configuration stay: a stopped or refused block receives nothing. -/
def State.withFetchWord (s : State) (nbits w : Nat) : State := pushEvent s (.command (tableCommand nbits w))

end Sys2Proof.Machine
end

