-- ==== Sys2Proof/Machine/Asm.lean ====
section
/-! DEFINITION. The assembler syntax of 30_encoding.md R75: what a line of text stands for, and the text of an operation.
The conventions R75 leaves to a reader of lines (spaces, case, one reading per clock operand) are in log 16. -/

namespace Sys2Proof.Machine

/-- What a line stands for: nothing (a blank line, a comment), or one operation as the host delivers it. -/
inductive AsmLine where
  | blank
  | operation (c : Command)
  deriving DecidableEq, Repr

/-! ### Reading -/

/-- The characters that separate a mnemonic from its operands. -/
def isSpace (c : Char) : Bool := c = ' ' || c = '\t'

/-- The text without the spaces around it. -/
def trimSpaces (l : List Char) : List Char := ((l.dropWhile isSpace).reverse.dropWhile isSpace).reverse

/-- The text before the first `c`, and the text after it. -/
def cutAt (c : Char) (l : List Char) : List Char × List Char := (l.takeWhile (· != c), (l.dropWhile (· != c)).drop 1)

/-- The operands of a line, between commas. -/
def splitCommas : List Char → List (List Char)
  | [] => [[]]
  | c :: cs =>
    if c = ',' then [] :: splitCommas cs
    else match splitCommas cs with
      | [] => [[c]]
      | w :: ws => (c :: w) :: ws

/-- The value of a digit in a base of at most 16. -/
def digitValue (base : Nat) (c : Char) : Option Nat :=
  let n := c.toNat
  let v := if 48 ≤ n ∧ n ≤ 57 then n - 48 else if 97 ≤ n ∧ n ≤ 102 then n - 87 else if 65 ≤ n ∧ n ≤ 70 then n - 55 else 16
  if v < base then some v else none

/-- The number that digits denote, after the digits read already. -/
def readDigits (base acc : Nat) : List Char → Option Nat
  | [] => some acc
  | c :: cs =>
    match digitValue base c with
    | some v => readDigits base (acc * base + v) cs
    | none => none

/-- At least one digit. -/
def readDigits1 (base : Nat) (l : List Char) : Option Nat := if l.isEmpty then none else readDigits base 0 l

/-- "Numbers in decimal or `0x`/`0b`" (30_encoding.md R75). -/
def readNumber (l : List Char) : Option Nat :=
  match l with
  | '0' :: 'x' :: ds => readDigits1 16 ds
  | '0' :: 'b' :: ds => readDigits1 2 ds
  | ds => readDigits1 10 ds

/-- A rational literal without its sign: `5`, `12.5`, `7/3` (30_encoding.md R75). -/
def readUnsignedRational (l : List Char) : Option Rat :=
  if l.contains '/' then
    match readNumber (cutAt '/' l).1, readNumber (cutAt '/' l).2 with
    | some n, some d => if d = 0 then none else some ((n : Rat) / (d : Rat))
    | _, _ => none
  else if l.contains '.' then
    match readDigits1 10 (cutAt '.' l).1, readDigits1 10 (cutAt '.' l).2 with
    | some n, some f =>
      let scale := 10 ^ (cutAt '.' l).2.length
      some (((n * scale + f : Nat) : Rat) / (scale : Rat))
    | _, _ => none
  else (readNumber l).map fun n => (n : Rat)

/-- `<value>` (30_encoding.md R75). -/
def readRational (l : List Char) : Option Rat :=
  match l with
  | '-' :: ds => (readUnsignedRational ds).map fun q => -q
  | ds => readUnsignedRational ds

/-- A clock reading, `@` and a number of `W_CLK` bits (30_encoding.md R75). -/
def readClock (l : List Char) : Option ClkWord :=
  match l with
  | '@' :: ds =>
    match readNumber ds with
    | some n => if n < 2 ^ 32 then some (BitVec.ofNat 32 n) else none
    | none => none
  | _ => none

/-- A coil operand, 0..255 (30_encoding.md R75). -/
def readCoil (l : List Char) : Option (BitVec 8) :=
  match readNumber l with
  | some n => if n < 256 then some (BitVec.ofNat 8 n) else none
  | none => none

/-- `<KIND>`, a name of 30_encoding.md R68. -/
def readKind (l : List Char) : Option Kind :=
  match String.ofList l with
  | "FORWARD" => some .forward
  | "BACKWARD" => some .backward
  | "TURN_LEFT" => some .turnLeft
  | "TURN_RIGHT" => some .turnRight
  | "TURN_LEFT_ALT" => some .turnLeftAlt
  | "TURN_RIGHT_ALT" => some .turnRightAlt
  | "PAUSE" => some .pause
  | "INVALID" => some .invalid
  | _ => none

/-- `setcoils <right>, <left>`: the whole bytes go into the word (30_encoding.md R75). -/
def setCoilsWord (right left : BitVec 8) : CmdWord := 0#8 ++ left ++ right ++ 0#4 ++ 0x3#4

/-- The operation of a mnemonic with its operands (30_encoding.md R75); `none` for what is no line of the syntax. -/
def readOperation (mnemonic : String) (operands : List (List Char)) : Option Command :=
  match mnemonic, operands with
  | "setwiring", [['A']] => some (encode (.setWiring .a))
  | "setwiring", [['B']] => some (encode (.setWiring .b))
  | "initoutputs", [] => some (encode .initOutputs)
  | "setcoils", [r, l] =>
    match readCoil r, readCoil l with
    | some right, some left => some ⟨setCoilsWord right left, 0, 0, 0⟩
    | _, _ => none
  | "disablecoils", [] => some (encode .disableCoils)
  | "prepare", [k, v, t] =>
    match readKind k, readRational v, readClock t with
    | some kind, some value, some us => some (encode (.prepare kind value us))
    | _, _, _ => none
  | "advance", [m, u] =>
    match readClock m, readClock u with
    | some ms, some us => some (encode (.advance ms us))
    | _, _ => none
  | "stop", [m] => (readClock m).map fun ms => encode (.stop ms)
  | _, _ => none

/-- One line of assembler (30_encoding.md R75); `none` for what is no line of the syntax. -/
def assembleLine (text : String) : Option AsmLine :=
  let line := trimSpaces (cutAt ';' text.toList).1
  let rest := trimSpaces (line.dropWhile fun c => !isSpace c)
  let operands := if rest.isEmpty then [] else (splitCommas rest).map trimSpaces
  if line.isEmpty then some .blank
  else (readOperation (String.ofList (line.takeWhile fun c => !isSpace c)) operands).map .operation

/-! ### Writing -/

/-- The name of a kind (30_encoding.md R68). -/
def kindName : Kind → String
  | .forward => "FORWARD"
  | .backward => "BACKWARD"
  | .turnLeft => "TURN_LEFT"
  | .turnRight => "TURN_RIGHT"
  | .turnLeftAlt => "TURN_LEFT_ALT"
  | .turnRightAlt => "TURN_RIGHT_ALT"
  | .pause => "PAUSE"
  | .invalid => "INVALID"

/-- The name of a status (30_encoding.md R69). -/
def statusName : Status → String
  | .idle => "IDLE"
  | .pending => "PENDING"
  | .finished => "FINISHED"

/-- A number in decimal. -/
def decimal (n : Nat) : String := String.ofList (Nat.toDigits 10 n)

/-- A rational literal: a number, or a quotient of two. -/
def rationalText (q : Rat) : String :=
  (if q < 0 then "-" else "") ++ decimal q.num.natAbs ++ (if q.den = 1 then "" else "/" ++ decimal q.den)

/-- A clock reading. -/
def clockText (t : ClkWord) : String := "@" ++ decimal t.toNat

/-- The line of an operation (30_encoding.md R75). -/
def asmText : Instr → String
  | .setWiring .a => "setwiring A"
  | .setWiring .b => "setwiring B"
  | .initOutputs => "initoutputs"
  | .setCoils r l => "setcoils " ++ decimal r.toNat ++ ", " ++ decimal l.toNat
  | .disableCoils => "disablecoils"
  | .prepare k v us => "prepare " ++ kindName k ++ ", " ++ rationalText v ++ ", " ++ clockText us
  | .advance ms us => "advance " ++ clockText ms ++ ", " ++ clockText us
  | .stop ms => "stop " ++ clockText ms

/-- The line of an operation in a listing, what it returned after `->` (30_encoding.md R75). -/
def listingText (i : Instr) (result : Option Status) : String :=
  match result with
  | some s => asmText i ++ " -> " ++ statusName s
  | none => asmText i

end Sys2Proof.Machine
end

