-- ==== Sys2Proof/Machine/Observe.lean ====
section
/-! DEFINITION. The registers by name and number, what a model's observation reads of each, and which operations write each
(10_state.md R21). -/

namespace Sys2Proof.Machine

/-- The registers of 10_state.md R21. -/
inductive Reg where
  | steps | interval | accelUntil | decelBelow | seqStart | seqStep | seqIdx | lastStepUs | actKind | coilR | coilL | actMs
  | wiring | outInit
  deriving DecidableEq, Repr

/-- The reference number of a register (10_state.md R21). -/
def regNum : Reg → Nat
  | .steps => 0
  | .interval => 1
  | .accelUntil => 2
  | .decelBelow => 3
  | .seqStart => 4
  | .seqStep => 5
  | .seqIdx => 6
  | .lastStepUs => 7
  | .actKind => 8
  | .coilR => 9
  | .coilL => 10
  | .actMs => 11
  | .wiring => 12
  | .outInit => 13

/-- The value of a register: an unsigned word, or one of the named values. -/
inductive RegValue where
  | word (n : Nat)
  | direction (d : SeqStep)
  | kind (k : Kind)
  | wiring (w : Wiring)
  | flag (b : Bool)
  deriving DecidableEq, Repr

/-- The observation: every register is readable (10_state.md R21). -/
def readReg (s : State) : Reg → RegValue
  | .steps => .word s.steps.toNat
  | .interval => .word s.interval.toNat
  | .accelUntil => .word s.accelUntil.toNat
  | .decelBelow => .word s.decelBelow.toNat
  | .seqStart => .word s.seqStart.toNat
  | .seqStep => .direction s.seqStep
  | .seqIdx => .word s.seqIdx.toNat
  | .lastStepUs => .word s.lastStepUs.toNat
  | .actKind => .kind s.actKind
  | .coilR => .word s.coilR.toNat
  | .coilL => .word s.coilL.toNat
  | .actMs => .word s.actMs.toNat
  | .wiring => .wiring s.wiring
  | .outInit => .flag s.outInit

/-- The registers an operation may write: the "written by" column of 10_state.md R21, read by operation. -/
def writtenBy : Instr → List Reg
  | .setWiring _ => [.wiring]
  | .initOutputs => [.outInit]
  | .setCoils _ _ => [.coilR, .coilL]
  | .disableCoils => [.coilR, .coilL]
  | .prepare _ _ _ => [.steps, .interval, .accelUntil, .decelBelow, .seqStart, .seqStep, .lastStepUs, .actKind]
  | .advance _ _ => [.steps, .interval, .seqIdx, .lastStepUs, .coilR, .coilL, .actMs]
  | .stop _ => [.steps]

/-- The operation may write the register (10_state.md R21). -/
def mayWrite (i : Instr) (r : Reg) : Bool := decide (r ∈ writtenBy i)

end Sys2Proof.Machine
end

