-- ==== Sys2Proof/Machine/Run.lean ====
section
/-! DEFINITION. The run of a block with the marks FAULT and REFUSED (10_state.md R41; 60_exceptions.md R134, R135), and the
host's sequences over it (30_encoding.md R76; 70_reset_and_hazards.md R148). -/

namespace Sys2Proof.Machine

/-- FAULT or REFUSED is set. -/
def stopped (s : State) : Bool := s.fault.isSome || s.refused.isSome

/-- The state after the block received its next event: a fault or a refusal writes its mark and nothing else; a stopped
block keeps its state for ever (60_exceptions.md R134, R135). -/
def runStep (s : State) : State :=
  if stopped s then s
  else match step s with
    | .next t => t
    | .fault r => recordFault s r
    | .refused r => recordRefusal s r

/-- `k` events, with the marks. -/
def runSteps : Nat → State → State
  | 0, s => s
  | k + 1, s => runSteps k (runStep s)

/-- The host issues these operations next, in this order. -/
def issue (s : State) (is : List Instr) : State :=
  { s with stream := s.stream ++ is.map fun i => .command (encode i) }

/-- The boot sequence (70_reset_and_hazards.md R148), the configuration being fixed already. -/
def bootSequence (v : Variant) : List Instr := [.setWiring v, .initOutputs]

/-- `halt` (30_encoding.md R76): the two-step shutdown. -/
def haltSequence (nowMs : ClkWord) : List Instr := [.stop nowMs, .disableCoils]

/-- `keepalive_pulse` (30_encoding.md R76; 70_reset_and_hazards.md R160); the hold between the two is not seen by the block. -/
def keepalivePulse : List Instr := [.setCoils 0 1, .setCoils 0 0]

/-- The operations one after the other, up to the first fault or refusal. -/
def execAll : List Instr → State → Result
  | [], s => .next s
  | i :: rest, s => andThen (exec i s) (execAll rest)

/-- The loop of `run` (30_encoding.md R76): ADVANCE at each pair of readings (milliseconds, microseconds) until a status other
than PENDING. With no reading left the action is still in flight. -/
def pollUntilDone : List (ClkWord × ClkWord) → State → Result
  | [], s => .next s
  | (ms, us) :: rest, s =>
    andThen (exec (.advance ms us) s) fun t => if t.result = some .pending then pollUntilDone rest t else .next t

/-- `run <KIND>, <value>` (30_encoding.md R76), and with it `forward`, `backward`, ..., `pause`, which are `run` with that kind. -/
def runAction (kind : Kind) (value : Rat) (t0 : ClkWord) (polls : List (ClkWord × ClkWord)) (s : State) : Result :=
  andThen (exec (.prepare kind value t0) s) (pollUntilDone polls)

end Sys2Proof.Machine
end

