-- ==== Sys2Proof/Safety.lean ====
section
/-! DEFINITION. What claims call a booted block, a block with no mark, a coherent state, and the successful end of a run. -/

namespace Sys2Proof.Machine

/-- After boot every operation has its normal meaning (70_reset_and_hazards.md R148): a variant is bound, the outputs are set. -/
def Booted (s : State) (v : Variant) : Prop := s.wiring = .bound v ∧ s.outInit = true

/-- The block can receive an operation: no mark is set and the configuration is legal (60_exceptions.md R134, R135). -/
def Live (s : State) : Prop := s.fault = none ∧ s.refused = none ∧ configLegal s.cfg = true

/-- An action is due: one is in flight and its interval has elapsed (41_action_engine.md R105, R106). -/
def Due (s : State) (nowUs : ClkWord) : Prop := s.steps ≠ 0 ∧ s.interval.toNat ≤ (elapsed nowUs s.lastStepUs).toNat

/-- 10_state.md R43: while a linear or turn action is in flight, (SEQ_START, SEQ_STEP) is (0, +1) or (3, -1). -/
def DirectionCoherent (s : State) : Prop :=
  s.steps ≠ 0 → (kindClass s.actKind = .linear ∨ kindClass s.actKind = .turn) →
    (s.seqStart = 0 ∧ s.seqStep = .plus) ∨ (s.seqStart = 3 ∧ s.seqStep = .minus)

/-- 20_memory.md R48: every line of the bound map shows its bit of COIL_OUT on its port. -/
def CoilsShown (s : State) (v : Variant) : Prop :=
  ∀ i : Fin 8, 
    (portRead s.ports (lineBit (wiringMap s.cfg v) i).port).testBit (lineBit (wiringMap s.cfg v) i).bit = (coilOut s)[i]

/-- The end of a run is successful (70_reset_and_hazards.md R162): the host has issued its last operation, no action is in
flight, and no mark is set. -/
def SuccessfulEnd (s : State) : Prop := s.stream = [] ∧ s.steps = 0 ∧ s.fault = none ∧ s.refused = none

end Sys2Proof.Machine
end

