-- ==== Sys2Proof/Certificates/Slice0/Obligations.lean ====
section
/-! DEFINITION. The statements for the provers, from the numbered rules of spec/. Each holds for every configuration that its
hypotheses admit; none rests on a value that a log entry chose, unless its docstring says so. The number 2^32 is the spec's
decided width (00_scope.md R12, log 5). How an operation arrives (`stream`), what it returned (`result`) and when a mark is
written (`runStep`) are the model's form of R38, R37 and R41 (logs 1, 3, 4). -/

namespace Sys2Proof.Claims

open Sys2Proof Sys2Proof.Machine

/-- The step count of 41_action_engine.md R95, R96 with real absolute value and floor; a negative quantity, which only an
illegal configuration gives, counts as 0 (log 14). -/
def countOf (c : Config) (k : Kind) (value : Rat) : Nat :=
  match k with
  | .forward | .backward | .pause => ⌊|value| * (c.mmPerUnit : Rat) * c.spmm⌋₊
  | .turnLeft | .turnRight | .turnLeftAlt | .turnRightAlt => ⌊|value| * c.spd⌋₊
  | .invalid => 0

/-- The mirror of 41_action_engine.md R94, and every kind itself where the flag is off. -/
def kindUnder (fixReversed : Bool) (k : Kind) : Kind :=
  match fixReversed, k with
  | true, .forward => .backward
  | true, .backward => .forward
  | true, .turnLeft => .turnRight
  | true, .turnRight => .turnLeft
  | true, .turnLeftAlt => .turnRightAlt
  | true, .turnRightAlt => .turnLeftAlt
  | _, k => k

/-- SEQ_START after arming kind `k`, from the old value (41_action_engine.md R100). -/
def startOf (k : Kind) (old : SeqIndex) : SeqIndex :=
  match k with
  | .forward | .turnRight | .turnRightAlt => 0
  | .backward | .turnLeft | .turnLeftAlt => 3
  | .pause | .invalid => old

/-- SEQ_STEP after arming kind `k`, from the old value (41_action_engine.md R100). -/
def stepOf (k : Kind) (old : SeqStep) : SeqStep :=
  match k with
  | .forward | .turnRight | .turnRightAlt => .plus
  | .backward | .turnLeft | .turnLeftAlt => .minus
  | .pause | .invalid => old

/-- Kinds that drive the coils with mirrored indices (41_action_engine.md R110). -/
def linearKind (k : Kind) : Prop := k = .forward ∨ k = .backward

/-- Kinds that drive both motors with the same index (41_action_engine.md R111). -/
def turnKind (k : Kind) : Prop := k = .turnLeft ∨ k = .turnRight ∨ k = .turnLeftAlt ∨ k = .turnRightAlt

/-- Two outcomes that agree but for ACT_KIND. -/
def sameButKind (a b : Host.Outcome State Fault Refusal) : Prop :=
  match a, b with
  | .next s, .next t => { s with actKind := t.actKind } = t
  | .fault f, .fault g => f = g
  | .refused r, .refused q => r = q
  | _, _ => False

/-- Two outcomes that agree but for ACT_MS. -/
def sameButActMs (a b : Host.Outcome State Fault Refusal) : Prop :=
  match a, b with
  | .next s, .next t => { s with actMs := t.actMs } = t
  | .fault f, .fault g => f = g
  | .refused r, .refused q => r = q
  | _, _ => False

/-- Bit `b` of port `p`. -/
def portBit (s : State) (p b : Nat) : Bool := (portRead s.ports p).testBit b

/-- The bound map names bit `b` of port `p` (20_memory.md R48). -/
def isCoilBit (s : State) (p b : Nat) : Prop :=
  ∃ v, s.wiring = .bound v ∧ ∃ i : Fin 8, lineBit (wiringMap s.cfg v) i = ⟨p, b⟩

/-- `A = min(ceil(2n/5), 345)`, the accelerating steps of an action of `n` steps (41_action_engine.md R117). -/
def accelSteps (n : Nat) : Nat := min ((2 * n + 4) / 5) 345

/-- `T = min(floor(27n/100), 230)` (41_action_engine.md R117). -/
def decelBound (n : Nat) : Nat := min (27 * n / 100) 230

/-- The interval after step `j` of an action of `n` steps (41_action_engine.md R118):
`I_j = B - 2 min(j, A) + 3 max(0, j - (n - T + 1))`. -/
def rampInterval (base n j : Nat) : Int :=
  (base : Int) - 2 * (min j (accelSteps n) : Nat) + 3 * max 0 ((j : Int) - ((n : Int) - (decelBound n : Int) + 1))

/-- The engine is `j = n - STEPS` steps into an action of `n` steps, its thresholds are those of R117 and its interval is
R118's `I_j`. -/
def OnRamp (s : State) (n : Nat) : Prop :=
  s.steps.toNat ≤ n ∧ s.accelUntil.toNat = n - accelSteps n ∧ s.decelBelow.toNat = decelBound n ∧
    (s.interval.toNat : Int) = rampInterval ⌊(s.cfg.usPerS : Rat) / s.cfg.sps⌋₊ n (n - s.steps.toNat)

/-- The configurations of R118: default profile, legal, and a base interval from which no action of the default profile wraps
INTERVAL at either end (70_reset_and_hazards.md R152 gives the lower bound 690). -/
def NoWrap (c : Config) : Prop :=
  c.hasDefaultProfile ∧ 690 ≤ ⌊(c.usPerS : Rat) / c.sps⌋₊ ∧ ⌊(c.usPerS : Rat) / c.sps⌋₊ + 690 < 2 ^ 32

end Sys2Proof.Claims

open Sys2Proof Sys2Proof.Machine Sys2Proof.Claims

/-! ### Encoding -/

/-- Every operation, with every operand at every value, is read back from its own word and side operands. Nothing of an
operand is lost (30_encoding.md R62 to R70). -/
def Obligations.DecodeReadsBackEveryEncoding : Prop :=
  ∀ i : Instr, i.wf = true → decode (encode i) = .ok i

/-- 30_encoding.md R71: a word that decodes to an operation is that operation's encoding but for the bits R71 ignores, and the
ignored bits change nothing. -/
def Obligations.IgnoredBitsAreTheOnlyFreedom : Prop :=
  (∀ (c : Command) (i : Instr), decode c = .ok i → encodeWord i = c.word &&& ~~~ ignoredBits i) ∧
  (∀ c : Command, c.word &&& 0x0000000F = 3 → decode c = decode { c with word := c.word &&& 0xFF0F0FFF })

/-- 30_encoding.md R70, R72: the decoder is total, and refuses exactly the reserved opcodes, by name, and exactly the words
of an assigned opcode with a reserved bit set, by name. -/
def Obligations.DecoderRefusesExactlyReserved : Prop :=
  ∀ c : Command,
    (decode c = .error .reservedOpcode ↔ (c.word.extractLsb' 0 4 = 0 ∨ 8 ≤ (c.word.extractLsb' 0 4).toNat)) ∧
    (decode c = .error .reservedField ↔ (c.opcodeAssigned = true ∧ c.reservedClear = false)) ∧
    ((∃ i, decode c = .ok i) ↔ c.wf = true)

/-- 30_encoding.md R67: a word selects a row of the opcode map, by its match and mask, exactly when it decodes to an operation
of that row; no two rows match the same word. -/
def Obligations.WordSelectsItsOpcodeRow : Prop :=
  (∀ (c : Command) (i : Instr),
    c.word &&& rowMask i = rowMatch i ↔ ∃ j, decode c = .ok j ∧ rowMatch j = rowMatch i) ∧
  (∀ (w : CmdWord) (i j : Instr), w &&& rowMask i = rowMatch i → w &&& rowMask j = rowMatch j → rowMatch i = rowMatch j)

/-- 30_encoding.md R77: the worked encodings, both ways, and their refusals. -/
def Obligations.WorkedEncodingsDecode : Prop :=
  decode ⟨0x00000011, 0, 0, 0⟩ = .ok (.setWiring .b) ∧
  decode ⟨0x00010003, 0, 0, 0⟩ = .ok (.setCoils 0 1) ∧
  decode ⟨0x003AF503, 0, 0, 0⟩ = .ok (.setCoils 0x5 0xA) ∧
  decode ⟨0x00000005, 5, 0, 0⟩ = .ok (.prepare .forward 5 0) ∧
  decode ⟨0x00000055, 90, 0, 0⟩ = .ok (.prepare .turnRightAlt 90 0) ∧
  decode ⟨0x00000065, 1, 0, 0⟩ = .ok (.prepare .pause 1 0) ∧
  decode ⟨0x00000075, 1, 0, 0⟩ = .ok (.prepare .invalid 1 0) ∧
  decode ⟨0x00000085, 0, 0, 0⟩ = .error .reservedField ∧
  decode ⟨0x00000008, 0, 0, 0⟩ = .error .reservedOpcode ∧
  decode ⟨0x00000000, 0, 0, 0⟩ = .error .reservedOpcode ∧
  encodeWord (.setWiring .b) = 0x00000011 ∧ encodeWord (.setCoils 0 1) = 0x00010003 ∧ setCoilsWord 0xF5 0x3A = 0x003AF503 ∧
  encodeWord (.prepare .forward 5 0) = 0x00000005 ∧ encodeWord (.prepare .turnRightAlt 90 0) = 0x00000055 ∧
  encodeWord (.prepare .pause 1 0) = 0x00000065 ∧ encodeWord (.prepare .invalid 1 0) = 0x00000075

/-- 30_encoding.md R75: one line of assembler for each row of its table, with the three forms of a number, of a rational and a
comment, and three lines that are none. -/
def Obligations.WorkedLinesAssemble : Prop :=
  assembleLine "setwiring A" = some (.operation ⟨0x00000001, 0, 0, 0⟩) ∧
  assembleLine "setwiring B" = some (.operation ⟨0x00000011, 0, 0, 0⟩) ∧
  assembleLine "initoutputs" = some (.operation ⟨0x00000002, 0, 0, 0⟩) ∧
  assembleLine "setcoils 0xF5, 0b00111010" = some (.operation ⟨0x003AF503, 0, 0, 0⟩) ∧
  assembleLine "setcoils 255, 0 ; the right byte" = some (.operation ⟨0x0000FF03, 0, 0, 0⟩) ∧
  assembleLine "disablecoils" = some (.operation ⟨0x00000004, 0, 0, 0⟩) ∧
  assembleLine "prepare FORWARD, 5, @0" = some (.operation ⟨0x00000005, 5, 0, 0⟩) ∧
  assembleLine "prepare TURN_LEFT, -12.5, @7000" = some (.operation ⟨0x00000025, -25 / 2, 7000, 0⟩) ∧
  assembleLine "prepare PAUSE, 7/3, @1" = some (.operation ⟨0x00000065, 7 / 3, 1, 0⟩) ∧
  assembleLine "advance @8, @8000" = some (.operation ⟨0x00000006, 0, 8000, 8⟩) ∧
  assembleLine "stop @100" = some (.operation ⟨0x00000007, 0, 0, 100⟩) ∧
  assembleLine "; a comment alone" = some .blank ∧
  assembleLine "setcoils 256, 0" = none ∧ assembleLine "stop 100" = none ∧ assembleLine "initoutputs 1" = none

/-! ### The step -/

/-- A step on a live block whose next event is an operation is that operation's meaning, on the state with the event received
(20_memory.md R56; the stream is the model's, log 1). -/
def Obligations.StepRunsDecodedOperation : Prop :=
  ∀ (s : State) (c : Command) (rest : List HostEvent) (i : Instr),
    Live s → s.stream = .command c :: rest → decode c = .ok i → step s = exec i { s with stream := rest }

/-- 30_encoding.md R72: a word with a reserved opcode, and one with a reserved bit set, is refused, REFUSED is set, and no other
state changes; a PREPARE of KIND 7 is no such word. -/
def Obligations.ReservedWordIsRefused : Prop :=
  (∀ (s : State) (c : Command) (rest : List HostEvent), Live s → s.stream = .command c :: rest →
    (c.word.extractLsb' 0 4 = 0 ∨ 8 ≤ (c.word.extractLsb' 0 4).toNat → step s = .refused .reservedOpcode ∧
      runStep s = { s with refused := some ⟨.reservedOpcode, some c.word⟩ }) ∧
    (c.opcodeAssigned = true → c.reservedClear = false → step s = .refused .reservedField ∧
      runStep s = { s with refused := some ⟨.reservedField, some c.word⟩ })) ∧
  (∀ (value : Rat) (us ms : ClkWord), decode ⟨0x00000075, value, us, ms⟩ = .ok (.prepare .invalid value us))

/-- A configuration is legal exactly when every parameter has a legal value of 10_state.md R35 (and P_PORTS is a set, R9). -/
def Obligations.ConfigurationLegalValues : Prop :=
  ∀ c : Config, configLegal c = true ↔
    (0 ≤ c.spmm ∧ 0 ≤ c.spd ∧ 0 < c.sps ∧ ⌊(c.usPerS : Rat) / c.sps⌋₊ < 2 ^ 32 ∧
      Function.Injective (lineBit c.mapA) ∧ Function.Injective (lineBit c.mapB) ∧
      (∀ i, (lineBit c.mapA i).port ∈ c.portNames ∧ (lineBit c.mapA i).bit < c.wPort) ∧
      (∀ i, (lineBit c.mapB i).port ∈ c.portNames ∧ (lineBit c.mapB i).bit < c.wPort) ∧
      c.portNames.Nodup ∧
      0 ≤ c.accelFrac ∧ c.accelFrac ≤ 1 ∧ 0 ≤ c.decelFrac ∧ c.decelFrac ≤ 1 ∧
      c.accelDelta < 2 ^ 32 ∧ c.decelDelta < 2 ^ 32)

/-- 60_exceptions.md R134: a fault writes nothing but FAULT, which holds the fault and the operation; the state it leaves has no
successor and is kept for ever, and it is no successful end. -/
def Obligations.FaultIsFinal : Prop :=
  ∀ (s : State) (r : Fault), Live s → step s = .fault r →
    runStep s = { s with fault := some ⟨r, headCommand s⟩ } ∧ (∃ c, headCommand s = some c) ∧
    (∀ t, step (runStep s) ≠ .next t) ∧ (∀ k, runSteps k (runStep s) = runStep s) ∧ ¬ SuccessfulEnd (runStep s)

/-- 60_exceptions.md R135: a refusal writes nothing but REFUSED, which records the refusal and, for an operation, its word; the
state it leaves has no successor and is kept for ever; an illegal configuration is refused before any operation. -/
def Obligations.RefusalIsFinal : Prop :=
  (∀ (s : State) (r : Refusal), s.fault = none → s.refused = none → step s = .refused r →
    (∃ w, runStep s = { s with refused := some ⟨r, w⟩ } ∧
      (r ≠ .badConfiguration → ∃ c, headCommand s = some c ∧ w = some c.word)) ∧
    (∀ t, step (runStep s) ≠ .next t) ∧ (∀ k, runSteps k (runStep s) = runStep s)) ∧
  (∀ s : State, s.fault = none → s.refused = none → configLegal s.cfg = false → step s = .refused .badConfiguration)

/-- 00_scope.md R7: the block never acts on its own. With nothing issued, nothing changes (the model's reading, log 2). -/
def Obligations.NothingIssuedNothingChanges : Prop :=
  ∀ s : State, Live s → s.stream = [] → step s = .next s

/-- A port write by another owner (the model's event, log 9) changes that port's bits that are no coil bits, and nothing else. -/
def Obligations.OtherOwnersKeepCoilBits : Prop :=
  ∀ (s : State) (p v : Nat) (rest : List HostEvent), Live s → s.stream = .otherOwnerWrite p v :: rest →
    ∃ t, step s = .next t ∧ t = { s with stream := rest, ports := t.ports } ∧
      (∀ q b, q ≠ p → portBit t q b = portBit s q b) ∧
      (∀ b, isCoilBit s p b → portBit t p b = portBit s p b) ∧
      (∀ b, ¬ isCoilBit s p b → p ∈ s.ports.map Prod.fst → portBit t p b = (decide (b < s.cfg.wPort) && v.testBit b))

/-! ### The Coil Driver -/

/-- 40_coil_driver.md R81, R82: SET_WIRING's word, its effect while unbound, and its refusal after. -/
def Obligations.SetWiringMeaning : Prop :=
  (∀ (c : Command) (v : Variant), decode c = .ok (.setWiring v) ↔
    (c.word &&& 0xFFFFFFEF = 1 ∧ v = if c.word.getLsbD 4 then .b else .a)) ∧
  (∀ (s : State) (v : Variant), s.wiring = .unbound →
    exec (.setWiring v) s = .next { s with wiring := .bound v, result := none }) ∧
  (∀ (s : State) (v w : Variant), s.wiring = .bound w → exec (.setWiring v) s = .refused .wiringRebind)

/-- 40_coil_driver.md R83: INIT_OUTPUTS's word, its effect, its fault and its refusal. -/
def Obligations.InitOutputsMeaning : Prop :=
  (∀ c : Command, decode c = .ok .initOutputs ↔ c.word = 2) ∧
  (∀ (s : State) (v : Variant), s.wiring = .bound v → s.outInit = false →
    exec .initOutputs s = .next { s with outInit := true, result := none }) ∧
  (∀ s : State, s.wiring = .unbound → exec .initOutputs s = .fault .notInitialised) ∧
  (∀ (s : State) (v : Variant), s.wiring = .bound v → s.outInit = true → exec .initOutputs s = .refused .outputsReinit)

/-- 40_coil_driver.md R88, R86: SET_COILS's word (the high nibbles of both operands read by nothing), its effect on a booted
block, and its fault on another. The ports become the masked write of R49; `OnlyMappedPortBitsChange` and
`CoilWriteShowsCoilOut` say what that is. -/
def Obligations.SetCoilsMeaning : Prop :=
  (∀ (c : Command) (r l : Pattern), decode c = .ok (.setCoils r l) ↔
    (c.word &&& 0xFF0000FF = 3 ∧ r = c.word.extractLsb' 8 4 ∧ l = c.word.extractLsb' 16 4)) ∧
  (∀ (s : State) (v : Variant) (r l : Pattern), Booted s v →
    exec (.setCoils r l) s = .next { s with
      coilR := r, coilL := l, ports := maskedWrite (wiringMap s.cfg v) (l ++ r) s.ports, result := none }) ∧
  (∀ (s : State) (r l : Pattern), (∀ v, ¬ Booted s v) → exec (.setCoils r l) s = .fault .notInitialised)

/-- 41_action_engine.md R124: DISABLE_COILS's word, its effect on a booted block, and its fault on another. -/
def Obligations.DisableCoilsMeaning : Prop :=
  (∀ c : Command, decode c = .ok .disableCoils ↔ c.word = 4) ∧
  (∀ (s : State) (v : Variant), Booted s v →
    exec .disableCoils s = .next { s with
      coilR := 0, coilL := 0, ports := maskedWrite (wiringMap s.cfg v) 0 s.ports, result := none }) ∧
  (∀ s : State, (∀ v, ¬ Booted s v) → exec .disableCoils s = .fault .notInitialised)

/-- 20_memory.md R48: after every coil write, by whichever operation, every line of the bound map, which is injective, shows its
bit of COIL_OUT. -/
def Obligations.CoilWriteShowsCoilOut : Prop :=
  ∀ (s t : State) (v : Variant) (i : Instr), configLegal s.cfg = true → portsWf s.cfg s.ports = true → s.wiring = .bound v →
    exec i s = .next t →
    (i = .disableCoils ∨ (∃ r l, i = .setCoils r l) ∨
      (∃ ms us, i = .advance ms us ∧ Due s us ∧ (linearKind s.actKind ∨ turnKind s.actKind))) →
    CoilsShown t v ∧ Function.Injective (lineBit (wiringMap s.cfg v))

/-- 20_memory.md R49 and 40_coil_driver.md R79: no operation changes a port bit that the bound map does not name, and only the
coil-writing operations change a port at all. -/
def Obligations.OnlyMappedPortBitsChange : Prop :=
  ∀ (i : Instr) (s t : State), exec i s = .next t →
    (∀ p b, ¬ isCoilBit s p b → portBit t p b = portBit s p b) ∧
    (i ≠ .disableCoils → (∀ r l, i ≠ .setCoils r l) → (∀ ms us, i ≠ .advance ms us) → t.ports = s.ports)

/-- 20_memory.md R53: a coil write is idempotent. -/
def Obligations.CoilWriteIsIdempotent : Prop :=
  ∀ (s t : State) (r l : Pattern), exec (.setCoils r l) s = .next t → exec (.setCoils r l) t = .next t

/-! ### PREPARE -/

/-- 41_action_engine.md R93 with R94 to R104: PREPARE's word, every register it writes and that nothing else changes, and its
fault when the step count does not fit. In a legal configuration every written value is R93's (`PrepareInLegalConfiguration`
says so); outside the legal ones a negative quantity counts as 0 and a value too wide keeps its low 32 bits, which is the
model's choice (log 14). -/
def Obligations.PrepareMeaning : Prop :=
  (∀ (c : Command) (k : Kind) (value : Rat) (us : ClkWord), decode c = .ok (.prepare k value us) ↔
    (c.word &&& 0xFFFFFF8F = 5 ∧ k = kindOfCode (c.word.extractLsb' 4 3) ∧ value = c.value ∧ us = c.nowUs)) ∧
  (∀ (s : State) (kind : Kind) (value : Rat) (us : ClkWord),
    let k := kindUnder s.cfg.fixReversed kind
    let n := countOf s.cfg k value
    (n < 2 ^ 32 → exec (.prepare kind value us) s = .next { s with
      actKind := k
      steps := BitVec.ofNat 32 n
      seqStart := startOf k s.seqStart
      seqStep := stepOf k s.seqStep
      interval := BitVec.ofNat 32 ⌊(s.cfg.usPerS : Rat) / s.cfg.sps⌋₊
      accelUntil := BitVec.ofNat 32 ⌊(n : Rat) - min (s.cfg.accelFrac * n) (s.cfg.accelCap : Rat)⌋₊
      decelBelow := BitVec.ofNat 32 ⌊min (s.cfg.decelFrac * n) (s.cfg.decelCap : Rat)⌋₊
      lastStepUs := us
      result := none }) ∧
    (2 ^ 32 ≤ n → exec (.prepare kind value us) s = .fault .stepCountOverflow))

/-- 41_action_engine.md R97: the sign of VALUE has no effect. -/
def Obligations.SignOfValueIsIgnored : Prop :=
  ∀ (s : State) (k : Kind) (value : Rat) (us : ClkWord), exec (.prepare k (-value) us) s = exec (.prepare k value us) s

/-- 41_action_engine.md R102, R103, the derived closed forms: with the default constants and `n` steps armed,
`ACCEL_UNTIL = n - min(ceil(2n/5), 345)` and `DECEL_BELOW = min(floor(27n/100), 230)`. -/
def Obligations.DefaultThresholds : Prop :=
  ∀ (s t : State) (k : Kind) (value : Rat) (us : ClkWord), s.cfg.hasDefaultProfile →
    exec (.prepare k value us) s = .next t →
    t.accelUntil.toNat = t.steps.toNat - min ((2 * t.steps.toNat + 4) / 5) 345 ∧
      t.decelBelow.toNat = min (27 * t.steps.toNat / 100) 230

/-- 41_action_engine.md R117, the derived ordering: with the default constants the acceleration and deceleration phases of an
action of at least one step never overlap. -/
def Obligations.DefaultPhasesNeverOverlap : Prop :=
  ∀ (s t : State) (k : Kind) (value : Rat) (us : ClkWord), s.cfg.hasDefaultProfile →
    exec (.prepare k value us) s = .next t → 1 ≤ t.steps.toNat → t.decelBelow.toNat ≤ t.accelUntil.toNat

/-- 41_action_engine.md R96, R127: an invalid kind arms zero steps, on every block and whatever the fix-reversed flag; a PREPARE
whose step count is 0, for whatever reason, leaves the engine idle (an action in flight is cancelled), and the next ADVANCE
returns IDLE and changes no register, coil or port. Outside the legal configurations a negative count is 0 by the model's choice
(log 14). -/
def Obligations.ZeroStepActionsAreIdle : Prop :=
  (∀ (s : State) (value : Rat) (us : ClkWord), ∃ t, exec (.prepare .invalid value us) s = .next t ∧ t.steps = 0 ∧
    t.actKind = .invalid ∧ t.seqStart = s.seqStart ∧ t.seqStep = s.seqStep) ∧
  (∀ (s : State) (k : Kind) (value : Rat) (us ms us' : ClkWord),
    countOf s.cfg (kindUnder s.cfg.fixReversed k) value = 0 →
    ∃ t, exec (.prepare k value us) s = .next t ∧ t.steps = 0 ∧
      exec (.advance ms us') t = .next { t with result := some .idle })

/-- 41_action_engine.md R126: the Alt turns behave as the primary turns, in PREPARE (count, thresholds, direction, mirror) and in
every ADVANCE. -/
def Obligations.AltTurnsBehaveAsTurns : Prop :=
  (∀ (s : State) (value : Rat) (us : ClkWord),
    sameButKind (exec (.prepare .turnLeftAlt value us) s) (exec (.prepare .turnLeft value us) s) ∧
    sameButKind (exec (.prepare .turnRightAlt value us) s) (exec (.prepare .turnRight value us) s)) ∧
  (∀ (s : State) (ms us : ClkWord),
    sameButKind (exec (.advance ms us) { s with actKind := .turnLeftAlt }) (exec (.advance ms us) { s with actKind := .turnLeft }) ∧
    sameButKind (exec (.advance ms us) { s with actKind := .turnRightAlt }) (exec (.advance ms us) { s with actKind := .turnRight })) ∧
  (∀ (s t : State) (value : Rat) (us : ClkWord), s.cfg.fixReversed = true →
    (exec (.prepare .turnLeftAlt value us) s = .next t → t.actKind = .turnRightAlt) ∧
    (exec (.prepare .turnRightAlt value us) s = .next t → t.actKind = .turnLeftAlt))

/-- 41_action_engine.md R125: a Pause of a magnitude has the step count, thresholds, interval and timestamp of a linear move of
that magnitude, each of its steps changes STEPS, INTERVAL, the timestamps and the status as a linear step does, and it writes no
coil, no port and no index. -/
def Obligations.PauseTakesTheTimeOfALinearMove : Prop :=
  (∀ (s : State) (value : Rat) (us : ClkWord) (t : State), exec (.prepare .pause value us) s = .next t →
    ∃ t', exec (.prepare .forward value us) s = .next t' ∧ t.steps = t'.steps ∧ t.accelUntil = t'.accelUntil ∧
      t.decelBelow = t'.decelBelow ∧ t.interval = t'.interval ∧ t.lastStepUs = t'.lastStepUs) ∧
  (∀ (s : State) (v : Variant) (ms us : ClkWord), Booted s v → s.actKind = .pause →
    ∃ t t', exec (.advance ms us) s = .next t ∧ exec (.advance ms us) { s with actKind := .forward } = .next t' ∧
      t.steps = t'.steps ∧ t.interval = t'.interval ∧ t.lastStepUs = t'.lastStepUs ∧ t.actMs = t'.actMs ∧
      t.result = t'.result ∧ t.seqIdx = s.seqIdx ∧ t.coilR = s.coilR ∧ t.coilL = s.coilL ∧ t.ports = s.ports)

/-! ### ADVANCE -/

/-- 41_action_engine.md R108: an idle ADVANCE, and one before its interval has elapsed, return IDLE or PENDING and write no
register, coil or port, booted or not. -/
def Obligations.AdvanceWithoutStepWritesNothing : Prop :=
  ∀ (s : State) (ms us : ClkWord),
    (s.steps = 0 → exec (.advance ms us) s = .next { s with result := some .idle }) ∧
    (s.steps ≠ 0 → ((us.toNat : Int) - s.lastStepUs.toNat) % 2 ^ 32 < s.interval.toNat →
      exec (.advance ms us) s = .next { s with result := some .pending })

/-- 41_action_engine.md R105 with R107 and R109 to R116: ADVANCE's word, and the step it takes when one is due: of a linear
action and of a turn on a booted block, of a Pause (or an invalid kind) on any; and its fault where a coil write is due on a
block that is not booted. Everything the step changes is named; nothing else changes. -/
def Obligations.AdvanceTakesOneStep : Prop :=
  (∀ (c : Command) (ms us : ClkWord), decode c = .ok (.advance ms us) ↔ (c.word = 6 ∧ ms = c.nowMs ∧ us = c.nowUs)) ∧
  (∀ (s : State) (ms us : ClkWord), s.steps ≠ 0 →
    (s.interval.toNat : Int) ≤ ((us.toNat : Int) - s.lastStepUs.toNat) % 2 ^ 32 →
    let interval' : IntervalWord :=
      if s.accelUntil < s.steps then BitVec.ofInt 32 ((s.interval.toNat : Int) - s.cfg.accelDelta)
      else if s.steps < s.decelBelow then BitVec.ofInt 32 ((s.interval.toNat : Int) + s.cfg.decelDelta)
      else s.interval
    let j : Int := (s.seqIdx.toNat : Int) + (match s.seqStep with | .plus => 1 | .minus => -1)
    let idx' : SeqIndex := if j < 0 ∨ 3 < j then s.seqStart else BitVec.ofInt 2 j
    let left := seqAt s.cfg s.seqIdx
    let mirrored := seqAt s.cfg (3 - s.seqIdx)
    let status := if s.steps = 1 then Status.finished else Status.pending
    (∀ v, Booted s v → linearKind s.actKind → exec (.advance ms us) s = .next { s with
      interval := interval', coilR := mirrored, coilL := left,
      ports := maskedWrite (wiringMap s.cfg v) (left ++ mirrored) s.ports, seqIdx := idx',
      steps := s.steps - 1, lastStepUs := us, actMs := ms, result := some status }) ∧
    (∀ v, Booted s v → turnKind s.actKind → exec (.advance ms us) s = .next { s with
      interval := interval', coilR := left, coilL := left,
      ports := maskedWrite (wiringMap s.cfg v) (left ++ left) s.ports, seqIdx := idx',
      steps := s.steps - 1, lastStepUs := us, actMs := ms, result := some status }) ∧
    ((s.actKind = .pause ∨ s.actKind = .invalid) → exec (.advance ms us) s = .next { s with
      interval := interval', steps := s.steps - 1, lastStepUs := us, actMs := ms, result := some status }) ∧
    ((∀ v, ¬ Booted s v) → (linearKind s.actKind ∨ turnKind s.actKind) →
      exec (.advance ms us) s = .fault .notInitialised))

/-- 41_action_engine.md R106: ADVANCE takes a step only when the modular difference of the readings has reached INTERVAL. -/
def Obligations.AdvanceStepsOnlyWhenDue : Prop :=
  ∀ (s t : State) (ms us : ClkWord), exec (.advance ms us) s = .next t → t.steps ≠ s.steps →
    (s.interval.toNat : Int) ≤ ((us.toNat : Int) - s.lastStepUs.toNat) % 2 ^ 32 ∧ t.steps.toNat + 1 = s.steps.toNat

/-- 41_action_engine.md R119, 70_reset_and_hazards.md R154, one step in real time: with readings of a clock that counts
microseconds from `T` (the last step, or the PREPARE) to `T'`, a step is taken no earlier than INTERVAL after `T`, and an ADVANCE
that comes at least INTERVAL and less than 2^32 after `T` takes it; the next wait starts at `T'`. -/
def Obligations.StepWaitsItsIntervalInRealTime : Prop :=
  ∀ (s t : State) (T T' : Nat) (ms : ClkWord), s.lastStepUs = BitVec.ofNat 32 T → T ≤ T' →
    exec (.advance ms (BitVec.ofNat 32 T')) s = .next t →
    (t.steps ≠ s.steps → T + s.interval.toNat ≤ T' ∧ t.lastStepUs = BitVec.ofNat 32 T') ∧
    (s.steps ≠ 0 → T + s.interval.toNat ≤ T' → T' < T + 2 ^ 32 → t.steps.toNat + 1 = s.steps.toNat)

/-- 41_action_engine.md R109: the interval ramp of a step of any class, the acceleration test first, modulo 2^W_INT. -/
def Obligations.IntervalRampOfAStep : Prop :=
  ∀ (s t : State) (ms us : ClkWord), Due s us → exec (.advance ms us) s = .next t →
    (s.accelUntil.toNat < s.steps.toNat →
      (t.interval.toNat : Int) = ((s.interval.toNat : Int) - s.cfg.accelDelta) % 2 ^ 32) ∧
    (s.steps.toNat ≤ s.accelUntil.toNat → s.steps.toNat < s.decelBelow.toNat →
      (t.interval.toNat : Int) = ((s.interval.toNat : Int) + s.cfg.decelDelta) % 2 ^ 32) ∧
    (s.steps.toNat ≤ s.accelUntil.toNat → s.decelBelow.toNat ≤ s.steps.toNat → t.interval = s.interval)

/-- 41_action_engine.md R120: while INTERVAL does not wrap and the phases do not overlap, no ADVANCE increases it while
STEPS is above ACCEL_UNTIL, none decreases it while STEPS is below DECEL_BELOW, and none changes it in between. -/
def Obligations.IntervalIsMonotoneInEachPhase : Prop :=
  ∀ (s t : State) (ms us : ClkWord), s.cfg.accelDelta ≤ s.interval.toNat → s.interval.toNat + s.cfg.decelDelta < 2 ^ 32 →
    s.decelBelow.toNat ≤ s.accelUntil.toNat → exec (.advance ms us) s = .next t →
    (s.accelUntil.toNat < s.steps.toNat → t.interval.toNat ≤ s.interval.toNat) ∧
    (s.steps.toNat < s.decelBelow.toNat → s.interval.toNat ≤ t.interval.toNat) ∧
    (s.steps.toNat ≤ s.accelUntil.toNat → s.decelBelow.toNat ≤ s.steps.toNat → t.interval = s.interval)

/-- 10_state.md R44: under R43's invariant the index move of a step of a linear or turn action is a move by SEQ_STEP modulo 4. -/
def Obligations.IndexMovesModuloFour : Prop :=
  ∀ (s t : State) (ms us : ClkWord), DirectionCoherent s → Due s us → (linearKind s.actKind ∨ turnKind s.actKind) →
    exec (.advance ms us) s = .next t →
    (t.seqIdx.toNat : Int) = ((s.seqIdx.toNat : Int) + (match s.seqStep with | .plus => 1 | .minus => -1)) % 4

/-- 10_state.md R43, the source's testable property: every pattern a step writes is an entry of the drive sequence. -/
def Obligations.StepPatternsAreInTheTable : Prop :=
  ∀ (s t : State) (ms us : ClkWord), Due s us → (linearKind s.actKind ∨ turnKind s.actKind) →
    exec (.advance ms us) s = .next t → t.coilR ∈ s.cfg.seq ∧ t.coilL ∈ s.cfg.seq

/-- 41_action_engine.md R116: FINISHED exactly on the action's last step, and every later ADVANCE returns IDLE. -/
def Obligations.FinishedOnceOnTheLastStep : Prop :=
  ∀ (s t : State) (ms us : ClkWord), exec (.advance ms us) s = .next t →
    (t.result = some .finished ↔ (s.steps = 1 ∧ Due s us)) ∧
    (t.result = some .finished → t.steps = 0 ∧
      ∀ ms' us', exec (.advance ms' us') t = .next { t with result := some .idle })

/-! ### STOP -/

/-- 41_action_engine.md R121, R122: STOP's word; it clears STEPS and writes no other register, coil or port, on every block,
whatever its reading; the next ADVANCE returns IDLE. -/
def Obligations.StopMeaning : Prop :=
  (∀ (c : Command) (ms : ClkWord), decode c = .ok (.stop ms) ↔ (c.word = 7 ∧ ms = c.nowMs)) ∧
  (∀ (s : State) (ms : ClkWord), exec (.stop ms) s = .next { s with steps := 0, result := none }) ∧
  (∀ (s t : State) (ms ms' us : ClkWord), exec (.stop ms) s = .next t →
    exec (.advance ms' us) t = .next { t with result := some .idle })

/-! ### Whole-machine rules -/

/-- 41_action_engine.md R115, 92 D36: the millisecond reading of an ADVANCE reaches ACT_MS alone, and that of a STOP nothing. -/
def Obligations.MillisecondReadingReachesOnlyActMs : Prop :=
  (∀ (s : State) (ms ms' us : ClkWord), sameButActMs (exec (.advance ms us) s) (exec (.advance ms' us) s)) ∧
  (∀ (s : State) (ms ms' : ClkWord), exec (.stop ms) s = exec (.stop ms') s) ∧
  (∀ (s t : State) (ms us : ClkWord), exec (.advance ms us) s = .next t → t.actMs = if t.steps = s.steps then s.actMs else ms)

/-- 10_state.md R37: only ADVANCE returns a status, and which one is decided by STEPS and the elapsed time. -/
def Obligations.OnlyAdvanceReturnsAStatus : Prop :=
  ∀ (i : Instr) (s t : State), exec i s = .next t →
    ((∀ ms us, i ≠ .advance ms us) → t.result = none) ∧
    (∀ ms us, i = .advance ms us →
      (s.steps = 0 → t.result = some .idle) ∧
      (s.steps ≠ 0 → ¬ Due s us → t.result = some .pending) ∧
      (Due s us → t.result = some (if s.steps = 1 then .finished else .pending)))

/-- 10_state.md R22: STEPS is set by PREPARE to the step count, counted down by one by a step, set to 0 by STOP, and by no
operation to any other value. -/
def Obligations.StepsChangesOnlyAsListed : Prop :=
  ∀ (i : Instr) (s t : State), exec i s = .next t →
    t.steps = s.steps ∨
    (∃ k value us, i = .prepare k value us ∧
      t.steps.toNat = countOf s.cfg (kindUnder s.cfg.fixReversed k) value) ∨
    (∃ ms us, i = .advance ms us ∧ t.steps.toNat + 1 = s.steps.toNat) ∨
    (∃ ms, i = .stop ms ∧ t.steps = 0)

/-- 10_state.md R21: a register is written only by the operations its "written by" column lists, and every register is
readable. -/
def Obligations.RegistersWrittenOnlyAsListed : Prop :=
  ∀ (i : Instr) (s t : State) (r : Reg), exec i s = .next t → mayWrite i r = false → readReg t r = readReg s r

/-- No operation changes the configuration (10_state.md R35), the marks (R41), or what the host has still to issue (the
model's stream, log 1); in particular none queues another action (R45). -/
def Obligations.OperationsKeepConfigurationMarksAndStream : Prop :=
  ∀ (i : Instr) (s t : State), exec i s = .next t →
    t.cfg = s.cfg ∧ t.fault = s.fault ∧ t.refused = s.refused ∧ t.stream = s.stream

/-- 60_exceptions.md R132: each fault, by its code, exactly for the operations and in the states the table gives, with the
record of word and side operands. -/
def Obligations.FaultsExactlyAsListed : Prop :=
  (faultCode .notInitialised = 1 ∧ faultCode .stepCountOverflow = 2) ∧
  (∀ (i : Instr) (s : State), exec i s = .fault .notInitialised ↔
    ((i = .initOutputs ∧ s.wiring = .unbound) ∨
      ((s.wiring = .unbound ∨ s.outInit = false) ∧
        ((∃ r l, i = .setCoils r l) ∨ i = .disableCoils ∨
          (∃ ms us, i = .advance ms us ∧ Due s us ∧ (linearKind s.actKind ∨ turnKind s.actKind)))))) ∧
  (∀ (i : Instr) (s : State), exec i s = .fault .stepCountOverflow ↔
    ∃ k value us, i = .prepare k value us ∧ 2 ^ 32 ≤ countOf s.cfg (kindUnder s.cfg.fixReversed k) value) ∧
  (∀ (s : State) (c : Command) (rest : List HostEvent) (i : Instr) (r : Fault), Live s → s.stream = .command c :: rest →
    decode c = .ok i → exec i { s with stream := rest } = .fault r → (runStep s).fault = some ⟨r, some c⟩)

/-- 60_exceptions.md R133: each refusal, by its code, exactly where the table gives it. -/
def Obligations.RefusalsExactlyAsListed : Prop :=
  (refusalCode .reservedOpcode = 1 ∧ refusalCode .reservedField = 2 ∧ refusalCode .wiringRebind = 3 ∧
    refusalCode .outputsReinit = 4 ∧ refusalCode .badConfiguration = 5) ∧
  (∀ (i : Instr) (s : State) (r : Refusal), exec i s = .refused r ↔
    ((r = .wiringRebind ∧ s.wiring ≠ .unbound ∧ ∃ v, i = .setWiring v) ∨
      (r = .outputsReinit ∧ s.wiring ≠ .unbound ∧ s.outInit = true ∧ i = .initOutputs))) ∧
  (∀ (s : State) (c : Command) (rest : List HostEvent), Live s → s.stream = .command c :: rest →
    (step s = .refused .reservedOpcode ↔ (c.word.extractLsb' 0 4 = 0 ∨ 8 ≤ (c.word.extractLsb' 0 4).toNat)) ∧
    (step s = .refused .reservedField ↔ (c.opcodeAssigned = true ∧ c.reservedClear = false))) ∧
  (∀ s : State, s.fault = none → s.refused = none → (step s = .refused .badConfiguration ↔ configLegal s.cfg = false)) ∧
  (∀ (s : State) (c : Command) (rest : List HostEvent) (r : Refusal), Live s → s.stream = .command c :: rest →
    step s = .refused r → (runStep s).refused = some ⟨r, some c.word⟩)

/-! ### Reset and boot -/

/-- 10_state.md R42, the values it gives: the engine idle, SEQ_IDX 0, no variant bound, outputs not initialised, no mark, the
configuration the run's argument. (The other registers hold unconstrained values, log 6; the empty stream is the model's, log 1.)
The reference configuration of State.reset is legal. -/
def Obligations.ResetValues : Prop :=
  (∀ c : Config, (State.resetWith c).steps = 0 ∧ (State.resetWith c).seqIdx = 0 ∧ (State.resetWith c).wiring = .unbound ∧
    (State.resetWith c).outInit = false ∧ (State.resetWith c).fault = none ∧ (State.resetWith c).refused = none ∧
    (State.resetWith c).cfg = c) ∧
  State.reset = State.resetWith Config.reference ∧ Live State.reset

/-- 70_reset_and_hazards.md R148: from reset with a legal configuration, SET_WIRING and then INIT_OUTPUTS boot the block, and
DISABLE_COILS next gives the coil outputs a known value, shown on the ports. -/
def Obligations.BootSequenceBoots : Prop :=
  ∀ (c : Config) (v : Variant), configLegal c = true →
    ∃ s, execAll (bootSequence v) (State.resetWith c) = .next s ∧ Booted s v ∧
      ∃ t, exec .disableCoils s = .next t ∧ t.coilR = 0 ∧ t.coilL = 0 ∧ CoilsShown t v

/-! ### Invariants -/

/-- 10_state.md R43: every step keeps (SEQ_START, SEQ_STEP) at (0, +1) or (3, -1) while a linear or turn action is in flight. -/
def Obligations.StepKeepsDirectionCoherent : Prop :=
  ∀ s t : State, DirectionCoherent s → step s = .next t → DirectionCoherent t

/-- R43's invariant holds after reset, in every configuration. -/
def Obligations.ResetIsDirectionCoherent : Prop := ∀ c : Config, DirectionCoherent (State.resetWith c)

/-- Every step keeps the port space well formed: exactly the ports of P_PORTS, each value of W_PORT bits (20_memory.md R47). -/
def Obligations.StepKeepsPortSpace : Prop :=
  ∀ s t : State, portsWf s.cfg s.ports = true → step s = .next t → portsWf t.cfg t.ports = true

/-- 20_memory.md R48 as an invariant: once the ports show COIL_OUT through the bound map, every step keeps it so, the writes of
the ports' other owners (log 9) included. -/
def Obligations.StepKeepsCoilsShown : Prop :=
  ∀ (s t : State) (v : Variant), portsWf s.cfg s.ports = true → s.wiring = .bound v → CoilsShown s v → step s = .next t →
    t.wiring = .bound v ∧ CoilsShown t v

/-- 10_state.md R33, R34, R35, 70_reset_and_hazards.md R147: the configuration is fixed, a bound variant stays bound, initialised
outputs stay initialised, and they are never initialised without a bound variant. -/
def Obligations.StepKeepsBootState : Prop :=
  ∀ s t : State, step s = .next t →
    t.cfg = s.cfg ∧ (∀ v, s.wiring = .bound v → t.wiring = .bound v) ∧ (s.outInit = true → t.outInit = true) ∧
    ((s.outInit = true → s.wiring ≠ .unbound) → (t.outInit = true → t.wiring ≠ .unbound))

/-- 41_action_engine.md R117, R118: an action armed by PREPARE starts on the ramp of its own step count, and every ADVANCE of an
action in flight keeps it on that ramp, its last step included: the interval after step `j` is `I_j`. -/
def Obligations.AdvanceKeepsActionOnItsRamp : Prop :=
  (∀ (s t : State) (k : Kind) (value : Rat) (us : ClkWord), NoWrap s.cfg → exec (.prepare k value us) s = .next t →
    OnRamp t t.steps.toNat) ∧
  (∀ (s t : State) (n : Nat) (ms us : ClkWord), NoWrap s.cfg → n < 2 ^ 32 → s.steps ≠ 0 → OnRamp s n →
    exec (.advance ms us) s = .next t → OnRamp t n)

/-- R118 as an invariant of every step: while an action is in flight, INTERVAL is the closed form of the ramp of some step
count. -/
def Obligations.StepKeepsRampForm : Prop :=
  ∀ s t : State, NoWrap s.cfg → (s.steps ≠ 0 → ∃ n, n < 2 ^ 32 ∧ OnRamp s n) → step s = .next t →
    (t.steps ≠ 0 → ∃ n, n < 2 ^ 32 ∧ OnRamp t n)

/-! ### PREPARE in a legal configuration -/

/-- 41_action_engine.md R93 with R94 to R104, in the configurations of 10_state.md R35: PREPARE's word; when the step count fits,
every register it writes holds exactly the number of R93, none cut to its width, and nothing else changes; when it does not fit,
the fault. -/
def Obligations.PrepareInLegalConfiguration : Prop :=
  (∀ (c : Command) (k : Kind) (value : Rat) (us : ClkWord), decode c = .ok (.prepare k value us) ↔
    (c.word &&& 0xFFFFFF8F = 5 ∧ k = kindOfCode (c.word.extractLsb' 4 3) ∧ value = c.value ∧ us = c.nowUs)) ∧
  (∀ (s : State) (kind : Kind) (value : Rat) (us : ClkWord), configLegal s.cfg = true →
    let k := kindUnder s.cfg.fixReversed kind
    let n := countOf s.cfg k value
    (n < 2 ^ 32 → ∃ t, exec (.prepare kind value us) s = .next t ∧
      t = { s with
        actKind := k, steps := t.steps, seqStart := startOf k s.seqStart, seqStep := stepOf k s.seqStep, interval := t.interval,
        accelUntil := t.accelUntil, decelBelow := t.decelBelow, lastStepUs := us, result := none } ∧
      t.steps.toNat = n ∧ (t.interval.toNat : Int) = ⌊(s.cfg.usPerS : Rat) / s.cfg.sps⌋ ∧
      (t.accelUntil.toNat : Int) = ⌊(n : Rat) - min (s.cfg.accelFrac * n) (s.cfg.accelCap : Rat)⌋ ∧
      (t.decelBelow.toNat : Int) = ⌊min (s.cfg.decelFrac * n) (s.cfg.decelCap : Rat)⌋) ∧
    (2 ^ 32 ≤ n → exec (.prepare kind value us) s = .fault .stepCountOverflow))
end

