-- ==== Sys2Proof/Laws/Decode.lean ====
section
/-! SUPPORT. The decoder and the opcode map in one form: a word of a row has the row's opcode field and its reserved fields 0
(30_encoding.md R65, R67, R70). -/

namespace Sys2Proof

/-- Two words are equal when all their bits are. -/
theorem bitVec_eq_iff {n : Nat} (a b : BitVec n) : a = b ↔ ∀ i < n, a.getLsbD i = b.getLsbD i :=
  ⟨fun h _ _ => by rw [h], fun h => BitVec.eq_of_getLsbD_eq fun i hi => h i hi⟩

/-- Format W: the row of SET_WIRING. -/
theorem row_setWiring (w : CmdWord) :
    w &&& 0xFFFFFFEF = 1 ↔ w.extractLsb' 0 4 = 0x1#4 ∧ w.extractLsb' 5 27 = 0 := by
  simp only [bitVec_eq_iff, BitVec.getLsbD_and, BitVec.getLsbD_extractLsb']
  simp only [Nat.forall_lt_succ_right, Nat.not_lt_zero, false_implies, implies_true, true_and]
  simp
  tauto

/-- Format C: the row of SET_COILS. -/
theorem row_setCoils (w : CmdWord) :
    w &&& 0xFF0000FF = 3 ↔ w.extractLsb' 0 4 = 0x3#4 ∧ w.extractLsb' 24 8 = 0 ∧ w.extractLsb' 4 4 = 0 := by
  simp only [bitVec_eq_iff, BitVec.getLsbD_and, BitVec.getLsbD_extractLsb']
  simp only [Nat.forall_lt_succ_right, Nat.not_lt_zero, false_implies, implies_true, true_and]
  simp
  tauto

/-- Format K: the row of PREPARE. -/
theorem row_prepare (w : CmdWord) :
    w &&& 0xFFFFFF8F = 5 ↔ w.extractLsb' 0 4 = 0x5#4 ∧ w.extractLsb' 7 25 = 0 := by
  simp only [bitVec_eq_iff, BitVec.getLsbD_and, BitVec.getLsbD_extractLsb']
  simp only [Nat.forall_lt_succ_right, Nat.not_lt_zero, false_implies, implies_true, true_and]
  simp
  tauto

/-- Format N: a row that names the opcode alone. -/
theorem row_noOperand (w : CmdWord) (op : BitVec 4) :
    w = op.setWidth 32 ↔ w.extractLsb' 0 4 = op ∧ w.extractLsb' 4 28 = 0 := by
  simp only [bitVec_eq_iff, BitVec.getLsbD_extractLsb', BitVec.getLsbD_setWidth]
  simp only [Nat.forall_lt_succ_right, Nat.not_lt_zero, false_implies, implies_true, true_and]
  simp
  tauto

/-- The instruction comes out exactly when no reserved bit is set. -/
theorem unlessReserved_eq_ok {r : Bool} {i j : Instr} : unlessReserved r i = .ok j ↔ r = false ∧ i = j := by
  cases r <;> simp [unlessReserved]

/-- The refusal comes out exactly when a reserved bit is set. -/
theorem unlessReserved_eq_error {r : Bool} {i : Instr} {e : DecodeRefusal} :
    unlessReserved r i = .error e ↔ r = true ∧ e = .reservedField := by
  cases r <;> simp [unlessReserved, eq_comm]

/-- What a decoded word is, by the opcode: one case per row of the opcode map, and the reserved opcodes. -/
theorem decode_cases (c : Command) :
    (c.word.extractLsb' 0 4 = 0x1#4 ∧ decode c = unlessReserved (c.word.extractLsb' 5 27 != 0)
      (.setWiring (variantOfBit (c.word.getLsbD 4)))) ∨
    (c.word.extractLsb' 0 4 = 0x2#4 ∧ decode c = unlessReserved (c.word.extractLsb' 4 28 != 0) .initOutputs) ∨
    (c.word.extractLsb' 0 4 = 0x3#4 ∧ decode c = unlessReserved
      (c.word.extractLsb' 24 8 != 0 || c.word.extractLsb' 4 4 != 0)
      (.setCoils (c.word.extractLsb' 8 4) (c.word.extractLsb' 16 4))) ∨
    (c.word.extractLsb' 0 4 = 0x4#4 ∧ decode c = unlessReserved (c.word.extractLsb' 4 28 != 0) .disableCoils) ∨
    (c.word.extractLsb' 0 4 = 0x5#4 ∧ decode c = unlessReserved (c.word.extractLsb' 7 25 != 0)
      (.prepare (kindOfCode (c.word.extractLsb' 4 3)) c.value c.nowUs)) ∨
    (c.word.extractLsb' 0 4 = 0x6#4 ∧ decode c = unlessReserved (c.word.extractLsb' 4 28 != 0) (.advance c.nowMs c.nowUs)) ∨
    (c.word.extractLsb' 0 4 = 0x7#4 ∧ decode c = unlessReserved (c.word.extractLsb' 4 28 != 0) (.stop c.nowMs)) ∨
    ((c.word.extractLsb' 0 4 = 0 ∨ 8 ≤ (c.word.extractLsb' 0 4).toNat) ∧ decode c = .error .reservedOpcode) := by
  have hop : ∀ op : BitVec 4, op = 0x1#4 ∨ op = 0x2#4 ∨ op = 0x3#4 ∨ op = 0x4#4 ∨ op = 0x5#4 ∨ op = 0x6#4 ∨ op = 0x7#4 ∨
      ((op = 0 ∨ 8 ≤ op.toNat) ∧ ∀ w v us ms, decodeOpcode op.toNat w v us ms = .error .reservedOpcode) := by
    intro op
    by_cases h : op = 0 ∨ 8 ≤ op.toNat
    · refine .inr (.inr (.inr (.inr (.inr (.inr (.inr ⟨h, fun w v us ms => ?_⟩))))))
      unfold decodeOpcode
      split <;> first
        | rfl
        | (rename_i he; rcases h with h | h
           · rw [h] at he; simp at he
           · omega)
    · have small : ∀ op : BitVec 4, ¬(op = 0 ∨ 8 ≤ op.toNat) →
          op = 0x1#4 ∨ op = 0x2#4 ∨ op = 0x3#4 ∨ op = 0x4#4 ∨ op = 0x5#4 ∨ op = 0x6#4 ∨ op = 0x7#4 := by decide
      rcases small op h with h | h | h | h | h | h | h <;> simp [h]
  unfold decode
  rcases hop (c.word.extractLsb' 0 4) with h | h | h | h | h | h | h | h
  · exact .inl ⟨h, by rw [h]; rfl⟩
  · exact .inr (.inl ⟨h, by rw [h]; rfl⟩)
  · exact .inr (.inr (.inl ⟨h, by rw [h]; rfl⟩))
  · exact .inr (.inr (.inr (.inl ⟨h, by rw [h]; rfl⟩)))
  · exact .inr (.inr (.inr (.inr (.inl ⟨h, by rw [h]; rfl⟩))))
  · exact .inr (.inr (.inr (.inr (.inr (.inl ⟨h, by rw [h]; rfl⟩)))))
  · exact .inr (.inr (.inr (.inr (.inr (.inr (.inl ⟨h, by rw [h]; rfl⟩))))))
  · exact .inr (.inr (.inr (.inr (.inr (.inr (.inr ⟨h.1, h.2 _ _ _ _⟩))))))

end Sys2Proof
end

