-- ==== Sys2Proof/Laws/Operands.lean ====
section
/-! SUPPORT. The arithmetic of operands in the library's terms: absolute value, minimum, floor, the modular clock difference,
the interval ramp over integers, the index move, and the status of a step. -/

namespace Sys2Proof.Machine

/-- `abs` (00_scope.md R15). -/
theorem absRat_eq (q : Rat) : absRat q = |q| := by
  unfold absRat
  split
  · next h => rw [abs_of_neg h]
  · next h => rw [abs_of_nonneg (not_lt.1 h)]

/-- `min` (00_scope.md R15). -/
theorem minRat_eq (a b : Rat) : minRat a b = min a b := by
  rw [minRat, min_def]

/-- `trunc` of a count (00_scope.md R15). -/
theorem truncNat_eq (q : Rat) : truncNat q = ⌊q⌋₊ := rfl

/-- `elapsed(now, then)` over integers (00_scope.md R16). -/
theorem elapsed_toNat (now last : ClkWord) :
    ((elapsed now last).toNat : Int) = ((now.toNat : Int) - last.toNat) % 2 ^ 32 := by
  rw [elapsed, BitVec.toNat_sub]
  omega

/-- The ramp over integers, wrapped (41_action_engine.md R109). -/
theorem rampedInterval_eq (s : State) : rampedInterval s =
    if s.accelUntil < s.steps then BitVec.ofInt 32 ((s.interval.toNat : Int) - s.cfg.accelDelta)
    else if s.steps < s.decelBelow then BitVec.ofInt 32 ((s.interval.toNat : Int) + s.cfg.decelDelta)
    else s.interval := by
  have h1 : s.interval - BitVec.ofNat 32 s.cfg.accelDelta = BitVec.ofInt 32 ((s.interval.toNat : Int) - s.cfg.accelDelta) := by
    apply BitVec.eq_of_toNat_eq
    have := s.interval.isLt
    simp only [BitVec.toNat_sub, BitVec.toNat_ofNat, BitVec.toNat_ofInt]
    omega
  have h2 : s.interval + BitVec.ofNat 32 s.cfg.decelDelta = BitVec.ofInt 32 ((s.interval.toNat : Int) + s.cfg.decelDelta) := by
    apply BitVec.eq_of_toNat_eq
    simp only [BitVec.toNat_add, BitVec.toNat_ofNat, BitVec.toNat_ofInt]
    omega
  rw [rampedInterval, h1, h2]

/-- Going forward from SEQ_START 0, and backward from 3, the move is by one modulo 4 (10_state.md R44). -/
theorem nextIndex_coherent (i : SeqIndex) : nextIndex i 0 .plus = i + 1 ∧ nextIndex i 3 .minus = i - 1 := by
  revert i
  decide

/-- The status of a step, from STEPS before the decrement (41_action_engine.md R116). -/
theorem stepStatus_pred (n : StepWord) : stepStatus (n - 1) = if n = 1 then Status.finished else Status.pending := by
  have : n - 1 = 0 ↔ n = 1 := by constructor <;> intro h <;> bv_omega
  simp only [stepStatus, this]

end Sys2Proof.Machine
end

