-- ==== Sys2Proof/Laws/State.lean ====
section
/-! SUPPORT. One lemma per field and register update of Machine/Ops.lean: what the field holds after the update. -/

namespace Sys2Proof.Machine

@[simp] theorem putResult_cfg (s : State) (r : Option Status) : (putResult s r).cfg = s.cfg := rfl
@[simp] theorem putResult_steps (s : State) (r : Option Status) : (putResult s r).steps = s.steps := rfl
@[simp] theorem putResult_interval (s : State) (r : Option Status) : (putResult s r).interval = s.interval := rfl
@[simp] theorem putResult_accelUntil (s : State) (r : Option Status) : (putResult s r).accelUntil = s.accelUntil := rfl
@[simp] theorem putResult_decelBelow (s : State) (r : Option Status) : (putResult s r).decelBelow = s.decelBelow := rfl
@[simp] theorem putResult_seqStart (s : State) (r : Option Status) : (putResult s r).seqStart = s.seqStart := rfl
@[simp] theorem putResult_seqStep (s : State) (r : Option Status) : (putResult s r).seqStep = s.seqStep := rfl
@[simp] theorem putResult_seqIdx (s : State) (r : Option Status) : (putResult s r).seqIdx = s.seqIdx := rfl
@[simp] theorem putResult_lastStepUs (s : State) (r : Option Status) : (putResult s r).lastStepUs = s.lastStepUs := rfl
@[simp] theorem putResult_actKind (s : State) (r : Option Status) : (putResult s r).actKind = s.actKind := rfl
@[simp] theorem putResult_coilR (s : State) (r : Option Status) : (putResult s r).coilR = s.coilR := rfl
@[simp] theorem putResult_coilL (s : State) (r : Option Status) : (putResult s r).coilL = s.coilL := rfl
@[simp] theorem putResult_actMs (s : State) (r : Option Status) : (putResult s r).actMs = s.actMs := rfl
@[simp] theorem putResult_wiring (s : State) (r : Option Status) : (putResult s r).wiring = s.wiring := rfl
@[simp] theorem putResult_outInit (s : State) (r : Option Status) : (putResult s r).outInit = s.outInit := rfl
@[simp] theorem putResult_ports (s : State) (r : Option Status) : (putResult s r).ports = s.ports := rfl
@[simp] theorem putResult_fault (s : State) (r : Option Status) : (putResult s r).fault = s.fault := rfl
@[simp] theorem putResult_refused (s : State) (r : Option Status) : (putResult s r).refused = s.refused := rfl
@[simp] theorem putResult_stream (s : State) (r : Option Status) : (putResult s r).stream = s.stream := rfl
@[simp] theorem putResult_result (s : State) (r : Option Status) : (putResult s r).result = r := rfl

@[simp] theorem putWiring_cfg (s : State) (v : Variant) : (putWiring s v).cfg = s.cfg := rfl
@[simp] theorem putWiring_steps (s : State) (v : Variant) : (putWiring s v).steps = s.steps := rfl
@[simp] theorem putWiring_interval (s : State) (v : Variant) : (putWiring s v).interval = s.interval := rfl
@[simp] theorem putWiring_accelUntil (s : State) (v : Variant) : (putWiring s v).accelUntil = s.accelUntil := rfl
@[simp] theorem putWiring_decelBelow (s : State) (v : Variant) : (putWiring s v).decelBelow = s.decelBelow := rfl
@[simp] theorem putWiring_seqStart (s : State) (v : Variant) : (putWiring s v).seqStart = s.seqStart := rfl
@[simp] theorem putWiring_seqStep (s : State) (v : Variant) : (putWiring s v).seqStep = s.seqStep := rfl
@[simp] theorem putWiring_seqIdx (s : State) (v : Variant) : (putWiring s v).seqIdx = s.seqIdx := rfl
@[simp] theorem putWiring_lastStepUs (s : State) (v : Variant) : (putWiring s v).lastStepUs = s.lastStepUs := rfl
@[simp] theorem putWiring_actKind (s : State) (v : Variant) : (putWiring s v).actKind = s.actKind := rfl
@[simp] theorem putWiring_coilR (s : State) (v : Variant) : (putWiring s v).coilR = s.coilR := rfl
@[simp] theorem putWiring_coilL (s : State) (v : Variant) : (putWiring s v).coilL = s.coilL := rfl
@[simp] theorem putWiring_actMs (s : State) (v : Variant) : (putWiring s v).actMs = s.actMs := rfl
@[simp] theorem putWiring_wiring (s : State) (v : Variant) : (putWiring s v).wiring = .bound v := rfl
@[simp] theorem putWiring_outInit (s : State) (v : Variant) : (putWiring s v).outInit = s.outInit := rfl
@[simp] theorem putWiring_ports (s : State) (v : Variant) : (putWiring s v).ports = s.ports := rfl
@[simp] theorem putWiring_fault (s : State) (v : Variant) : (putWiring s v).fault = s.fault := rfl
@[simp] theorem putWiring_refused (s : State) (v : Variant) : (putWiring s v).refused = s.refused := rfl
@[simp] theorem putWiring_stream (s : State) (v : Variant) : (putWiring s v).stream = s.stream := rfl
@[simp] theorem putWiring_result (s : State) (v : Variant) : (putWiring s v).result = s.result := rfl

@[simp] theorem putOutInit_cfg (s : State) : (putOutInit s).cfg = s.cfg := rfl
@[simp] theorem putOutInit_steps (s : State) : (putOutInit s).steps = s.steps := rfl
@[simp] theorem putOutInit_interval (s : State) : (putOutInit s).interval = s.interval := rfl
@[simp] theorem putOutInit_accelUntil (s : State) : (putOutInit s).accelUntil = s.accelUntil := rfl
@[simp] theorem putOutInit_decelBelow (s : State) : (putOutInit s).decelBelow = s.decelBelow := rfl
@[simp] theorem putOutInit_seqStart (s : State) : (putOutInit s).seqStart = s.seqStart := rfl
@[simp] theorem putOutInit_seqStep (s : State) : (putOutInit s).seqStep = s.seqStep := rfl
@[simp] theorem putOutInit_seqIdx (s : State) : (putOutInit s).seqIdx = s.seqIdx := rfl
@[simp] theorem putOutInit_lastStepUs (s : State) : (putOutInit s).lastStepUs = s.lastStepUs := rfl
@[simp] theorem putOutInit_actKind (s : State) : (putOutInit s).actKind = s.actKind := rfl
@[simp] theorem putOutInit_coilR (s : State) : (putOutInit s).coilR = s.coilR := rfl
@[simp] theorem putOutInit_coilL (s : State) : (putOutInit s).coilL = s.coilL := rfl
@[simp] theorem putOutInit_actMs (s : State) : (putOutInit s).actMs = s.actMs := rfl
@[simp] theorem putOutInit_wiring (s : State) : (putOutInit s).wiring = s.wiring := rfl
@[simp] theorem putOutInit_outInit (s : State) : (putOutInit s).outInit = true := rfl
@[simp] theorem putOutInit_ports (s : State) : (putOutInit s).ports = s.ports := rfl
@[simp] theorem putOutInit_fault (s : State) : (putOutInit s).fault = s.fault := rfl
@[simp] theorem putOutInit_refused (s : State) : (putOutInit s).refused = s.refused := rfl
@[simp] theorem putOutInit_stream (s : State) : (putOutInit s).stream = s.stream := rfl
@[simp] theorem putOutInit_result (s : State) : (putOutInit s).result = s.result := rfl

@[simp] theorem putCoils_cfg (s : State) (r l : Pattern) (ps : Ports) : (putCoils s r l ps).cfg = s.cfg := rfl
@[simp] theorem putCoils_steps (s : State) (r l : Pattern) (ps : Ports) : (putCoils s r l ps).steps = s.steps := rfl
@[simp] theorem putCoils_interval (s : State) (r l : Pattern) (ps : Ports) : (putCoils s r l ps).interval = s.interval := rfl
@[simp] theorem putCoils_accelUntil (s : State) (r l : Pattern) (ps : Ports) : (putCoils s r l ps).accelUntil = s.accelUntil := rfl
@[simp] theorem putCoils_decelBelow (s : State) (r l : Pattern) (ps : Ports) : (putCoils s r l ps).decelBelow = s.decelBelow := rfl
@[simp] theorem putCoils_seqStart (s : State) (r l : Pattern) (ps : Ports) : (putCoils s r l ps).seqStart = s.seqStart := rfl
@[simp] theorem putCoils_seqStep (s : State) (r l : Pattern) (ps : Ports) : (putCoils s r l ps).seqStep = s.seqStep := rfl
@[simp] theorem putCoils_seqIdx (s : State) (r l : Pattern) (ps : Ports) : (putCoils s r l ps).seqIdx = s.seqIdx := rfl
@[simp] theorem putCoils_lastStepUs (s : State) (r l : Pattern) (ps : Ports) : (putCoils s r l ps).lastStepUs = s.lastStepUs := rfl
@[simp] theorem putCoils_actKind (s : State) (r l : Pattern) (ps : Ports) : (putCoils s r l ps).actKind = s.actKind := rfl
@[simp] theorem putCoils_coilR (s : State) (r l : Pattern) (ps : Ports) : (putCoils s r l ps).coilR = r := rfl
@[simp] theorem putCoils_coilL (s : State) (r l : Pattern) (ps : Ports) : (putCoils s r l ps).coilL = l := rfl
@[simp] theorem putCoils_actMs (s : State) (r l : Pattern) (ps : Ports) : (putCoils s r l ps).actMs = s.actMs := rfl
@[simp] theorem putCoils_wiring (s : State) (r l : Pattern) (ps : Ports) : (putCoils s r l ps).wiring = s.wiring := rfl
@[simp] theorem putCoils_outInit (s : State) (r l : Pattern) (ps : Ports) : (putCoils s r l ps).outInit = s.outInit := rfl
@[simp] theorem putCoils_ports (s : State) (r l : Pattern) (ps : Ports) : (putCoils s r l ps).ports = ps := rfl
@[simp] theorem putCoils_fault (s : State) (r l : Pattern) (ps : Ports) : (putCoils s r l ps).fault = s.fault := rfl
@[simp] theorem putCoils_refused (s : State) (r l : Pattern) (ps : Ports) : (putCoils s r l ps).refused = s.refused := rfl
@[simp] theorem putCoils_stream (s : State) (r l : Pattern) (ps : Ports) : (putCoils s r l ps).stream = s.stream := rfl
@[simp] theorem putCoils_result (s : State) (r l : Pattern) (ps : Ports) : (putCoils s r l ps).result = s.result := rfl

@[simp] theorem putInterval_cfg (s : State) (v : IntervalWord) : (putInterval s v).cfg = s.cfg := rfl
@[simp] theorem putInterval_steps (s : State) (v : IntervalWord) : (putInterval s v).steps = s.steps := rfl
@[simp] theorem putInterval_interval (s : State) (v : IntervalWord) : (putInterval s v).interval = v := rfl
@[simp] theorem putInterval_accelUntil (s : State) (v : IntervalWord) : (putInterval s v).accelUntil = s.accelUntil := rfl
@[simp] theorem putInterval_decelBelow (s : State) (v : IntervalWord) : (putInterval s v).decelBelow = s.decelBelow := rfl
@[simp] theorem putInterval_seqStart (s : State) (v : IntervalWord) : (putInterval s v).seqStart = s.seqStart := rfl
@[simp] theorem putInterval_seqStep (s : State) (v : IntervalWord) : (putInterval s v).seqStep = s.seqStep := rfl
@[simp] theorem putInterval_seqIdx (s : State) (v : IntervalWord) : (putInterval s v).seqIdx = s.seqIdx := rfl
@[simp] theorem putInterval_lastStepUs (s : State) (v : IntervalWord) : (putInterval s v).lastStepUs = s.lastStepUs := rfl
@[simp] theorem putInterval_actKind (s : State) (v : IntervalWord) : (putInterval s v).actKind = s.actKind := rfl
@[simp] theorem putInterval_coilR (s : State) (v : IntervalWord) : (putInterval s v).coilR = s.coilR := rfl
@[simp] theorem putInterval_coilL (s : State) (v : IntervalWord) : (putInterval s v).coilL = s.coilL := rfl
@[simp] theorem putInterval_actMs (s : State) (v : IntervalWord) : (putInterval s v).actMs = s.actMs := rfl
@[simp] theorem putInterval_wiring (s : State) (v : IntervalWord) : (putInterval s v).wiring = s.wiring := rfl
@[simp] theorem putInterval_outInit (s : State) (v : IntervalWord) : (putInterval s v).outInit = s.outInit := rfl
@[simp] theorem putInterval_ports (s : State) (v : IntervalWord) : (putInterval s v).ports = s.ports := rfl
@[simp] theorem putInterval_fault (s : State) (v : IntervalWord) : (putInterval s v).fault = s.fault := rfl
@[simp] theorem putInterval_refused (s : State) (v : IntervalWord) : (putInterval s v).refused = s.refused := rfl
@[simp] theorem putInterval_stream (s : State) (v : IntervalWord) : (putInterval s v).stream = s.stream := rfl
@[simp] theorem putInterval_result (s : State) (v : IntervalWord) : (putInterval s v).result = s.result := rfl

@[simp] theorem putIndex_cfg (s : State) (i : SeqIndex) : (putIndex s i).cfg = s.cfg := rfl
@[simp] theorem putIndex_steps (s : State) (i : SeqIndex) : (putIndex s i).steps = s.steps := rfl
@[simp] theorem putIndex_interval (s : State) (i : SeqIndex) : (putIndex s i).interval = s.interval := rfl
@[simp] theorem putIndex_accelUntil (s : State) (i : SeqIndex) : (putIndex s i).accelUntil = s.accelUntil := rfl
@[simp] theorem putIndex_decelBelow (s : State) (i : SeqIndex) : (putIndex s i).decelBelow = s.decelBelow := rfl
@[simp] theorem putIndex_seqStart (s : State) (i : SeqIndex) : (putIndex s i).seqStart = s.seqStart := rfl
@[simp] theorem putIndex_seqStep (s : State) (i : SeqIndex) : (putIndex s i).seqStep = s.seqStep := rfl
@[simp] theorem putIndex_seqIdx (s : State) (i : SeqIndex) : (putIndex s i).seqIdx = i := rfl
@[simp] theorem putIndex_lastStepUs (s : State) (i : SeqIndex) : (putIndex s i).lastStepUs = s.lastStepUs := rfl
@[simp] theorem putIndex_actKind (s : State) (i : SeqIndex) : (putIndex s i).actKind = s.actKind := rfl
@[simp] theorem putIndex_coilR (s : State) (i : SeqIndex) : (putIndex s i).coilR = s.coilR := rfl
@[simp] theorem putIndex_coilL (s : State) (i : SeqIndex) : (putIndex s i).coilL = s.coilL := rfl
@[simp] theorem putIndex_actMs (s : State) (i : SeqIndex) : (putIndex s i).actMs = s.actMs := rfl
@[simp] theorem putIndex_wiring (s : State) (i : SeqIndex) : (putIndex s i).wiring = s.wiring := rfl
@[simp] theorem putIndex_outInit (s : State) (i : SeqIndex) : (putIndex s i).outInit = s.outInit := rfl
@[simp] theorem putIndex_ports (s : State) (i : SeqIndex) : (putIndex s i).ports = s.ports := rfl
@[simp] theorem putIndex_fault (s : State) (i : SeqIndex) : (putIndex s i).fault = s.fault := rfl
@[simp] theorem putIndex_refused (s : State) (i : SeqIndex) : (putIndex s i).refused = s.refused := rfl
@[simp] theorem putIndex_stream (s : State) (i : SeqIndex) : (putIndex s i).stream = s.stream := rfl
@[simp] theorem putIndex_result (s : State) (i : SeqIndex) : (putIndex s i).result = s.result := rfl

@[simp] theorem putDirection_cfg (s : State) (i : SeqIndex) (d : SeqStep) : (putDirection s i d).cfg = s.cfg := rfl
@[simp] theorem putDirection_steps (s : State) (i : SeqIndex) (d : SeqStep) : (putDirection s i d).steps = s.steps := rfl
@[simp] theorem putDirection_interval (s : State) (i : SeqIndex) (d : SeqStep) : (putDirection s i d).interval = s.interval := rfl
@[simp] theorem putDirection_accelUntil (s : State) (i : SeqIndex) (d : SeqStep) : (putDirection s i d).accelUntil = s.accelUntil := rfl
@[simp] theorem putDirection_decelBelow (s : State) (i : SeqIndex) (d : SeqStep) : (putDirection s i d).decelBelow = s.decelBelow := rfl
@[simp] theorem putDirection_seqStart (s : State) (i : SeqIndex) (d : SeqStep) : (putDirection s i d).seqStart = i := rfl
@[simp] theorem putDirection_seqStep (s : State) (i : SeqIndex) (d : SeqStep) : (putDirection s i d).seqStep = d := rfl
@[simp] theorem putDirection_seqIdx (s : State) (i : SeqIndex) (d : SeqStep) : (putDirection s i d).seqIdx = s.seqIdx := rfl
@[simp] theorem putDirection_lastStepUs (s : State) (i : SeqIndex) (d : SeqStep) : (putDirection s i d).lastStepUs = s.lastStepUs := rfl
@[simp] theorem putDirection_actKind (s : State) (i : SeqIndex) (d : SeqStep) : (putDirection s i d).actKind = s.actKind := rfl
@[simp] theorem putDirection_coilR (s : State) (i : SeqIndex) (d : SeqStep) : (putDirection s i d).coilR = s.coilR := rfl
@[simp] theorem putDirection_coilL (s : State) (i : SeqIndex) (d : SeqStep) : (putDirection s i d).coilL = s.coilL := rfl
@[simp] theorem putDirection_actMs (s : State) (i : SeqIndex) (d : SeqStep) : (putDirection s i d).actMs = s.actMs := rfl
@[simp] theorem putDirection_wiring (s : State) (i : SeqIndex) (d : SeqStep) : (putDirection s i d).wiring = s.wiring := rfl
@[simp] theorem putDirection_outInit (s : State) (i : SeqIndex) (d : SeqStep) : (putDirection s i d).outInit = s.outInit := rfl
@[simp] theorem putDirection_ports (s : State) (i : SeqIndex) (d : SeqStep) : (putDirection s i d).ports = s.ports := rfl
@[simp] theorem putDirection_fault (s : State) (i : SeqIndex) (d : SeqStep) : (putDirection s i d).fault = s.fault := rfl
@[simp] theorem putDirection_refused (s : State) (i : SeqIndex) (d : SeqStep) : (putDirection s i d).refused = s.refused := rfl
@[simp] theorem putDirection_stream (s : State) (i : SeqIndex) (d : SeqStep) : (putDirection s i d).stream = s.stream := rfl
@[simp] theorem putDirection_result (s : State) (i : SeqIndex) (d : SeqStep) : (putDirection s i d).result = s.result := rfl

@[simp] theorem putAction_cfg (s : State) (k : Kind) (n u d : StepWord) (us : ClkWord) : (putAction s k n u d us).cfg = s.cfg := rfl
@[simp] theorem putAction_steps (s : State) (k : Kind) (n u d : StepWord) (us : ClkWord) : (putAction s k n u d us).steps = n := rfl
@[simp] theorem putAction_interval (s : State) (k : Kind) (n u d : StepWord) (us : ClkWord) : (putAction s k n u d us).interval = s.interval := rfl
@[simp] theorem putAction_accelUntil (s : State) (k : Kind) (n u d : StepWord) (us : ClkWord) : (putAction s k n u d us).accelUntil = u := rfl
@[simp] theorem putAction_decelBelow (s : State) (k : Kind) (n u d : StepWord) (us : ClkWord) : (putAction s k n u d us).decelBelow = d := rfl
@[simp] theorem putAction_seqStart (s : State) (k : Kind) (n u d : StepWord) (us : ClkWord) : (putAction s k n u d us).seqStart = s.seqStart := rfl
@[simp] theorem putAction_seqStep (s : State) (k : Kind) (n u d : StepWord) (us : ClkWord) : (putAction s k n u d us).seqStep = s.seqStep := rfl
@[simp] theorem putAction_seqIdx (s : State) (k : Kind) (n u d : StepWord) (us : ClkWord) : (putAction s k n u d us).seqIdx = s.seqIdx := rfl
@[simp] theorem putAction_lastStepUs (s : State) (k : Kind) (n u d : StepWord) (us : ClkWord) : (putAction s k n u d us).lastStepUs = us := rfl
@[simp] theorem putAction_actKind (s : State) (k : Kind) (n u d : StepWord) (us : ClkWord) : (putAction s k n u d us).actKind = k := rfl
@[simp] theorem putAction_coilR (s : State) (k : Kind) (n u d : StepWord) (us : ClkWord) : (putAction s k n u d us).coilR = s.coilR := rfl
@[simp] theorem putAction_coilL (s : State) (k : Kind) (n u d : StepWord) (us : ClkWord) : (putAction s k n u d us).coilL = s.coilL := rfl
@[simp] theorem putAction_actMs (s : State) (k : Kind) (n u d : StepWord) (us : ClkWord) : (putAction s k n u d us).actMs = s.actMs := rfl
@[simp] theorem putAction_wiring (s : State) (k : Kind) (n u d : StepWord) (us : ClkWord) : (putAction s k n u d us).wiring = s.wiring := rfl
@[simp] theorem putAction_outInit (s : State) (k : Kind) (n u d : StepWord) (us : ClkWord) : (putAction s k n u d us).outInit = s.outInit := rfl
@[simp] theorem putAction_ports (s : State) (k : Kind) (n u d : StepWord) (us : ClkWord) : (putAction s k n u d us).ports = s.ports := rfl
@[simp] theorem putAction_fault (s : State) (k : Kind) (n u d : StepWord) (us : ClkWord) : (putAction s k n u d us).fault = s.fault := rfl
@[simp] theorem putAction_refused (s : State) (k : Kind) (n u d : StepWord) (us : ClkWord) : (putAction s k n u d us).refused = s.refused := rfl
@[simp] theorem putAction_stream (s : State) (k : Kind) (n u d : StepWord) (us : ClkWord) : (putAction s k n u d us).stream = s.stream := rfl
@[simp] theorem putAction_result (s : State) (k : Kind) (n u d : StepWord) (us : ClkWord) : (putAction s k n u d us).result = s.result := rfl

@[simp] theorem putSteps_cfg (s : State) (n : StepWord) : (putSteps s n).cfg = s.cfg := rfl
@[simp] theorem putSteps_steps (s : State) (n : StepWord) : (putSteps s n).steps = n := rfl
@[simp] theorem putSteps_interval (s : State) (n : StepWord) : (putSteps s n).interval = s.interval := rfl
@[simp] theorem putSteps_accelUntil (s : State) (n : StepWord) : (putSteps s n).accelUntil = s.accelUntil := rfl
@[simp] theorem putSteps_decelBelow (s : State) (n : StepWord) : (putSteps s n).decelBelow = s.decelBelow := rfl
@[simp] theorem putSteps_seqStart (s : State) (n : StepWord) : (putSteps s n).seqStart = s.seqStart := rfl
@[simp] theorem putSteps_seqStep (s : State) (n : StepWord) : (putSteps s n).seqStep = s.seqStep := rfl
@[simp] theorem putSteps_seqIdx (s : State) (n : StepWord) : (putSteps s n).seqIdx = s.seqIdx := rfl
@[simp] theorem putSteps_lastStepUs (s : State) (n : StepWord) : (putSteps s n).lastStepUs = s.lastStepUs := rfl
@[simp] theorem putSteps_actKind (s : State) (n : StepWord) : (putSteps s n).actKind = s.actKind := rfl
@[simp] theorem putSteps_coilR (s : State) (n : StepWord) : (putSteps s n).coilR = s.coilR := rfl
@[simp] theorem putSteps_coilL (s : State) (n : StepWord) : (putSteps s n).coilL = s.coilL := rfl
@[simp] theorem putSteps_actMs (s : State) (n : StepWord) : (putSteps s n).actMs = s.actMs := rfl
@[simp] theorem putSteps_wiring (s : State) (n : StepWord) : (putSteps s n).wiring = s.wiring := rfl
@[simp] theorem putSteps_outInit (s : State) (n : StepWord) : (putSteps s n).outInit = s.outInit := rfl
@[simp] theorem putSteps_ports (s : State) (n : StepWord) : (putSteps s n).ports = s.ports := rfl
@[simp] theorem putSteps_fault (s : State) (n : StepWord) : (putSteps s n).fault = s.fault := rfl
@[simp] theorem putSteps_refused (s : State) (n : StepWord) : (putSteps s n).refused = s.refused := rfl
@[simp] theorem putSteps_stream (s : State) (n : StepWord) : (putSteps s n).stream = s.stream := rfl
@[simp] theorem putSteps_result (s : State) (n : StepWord) : (putSteps s n).result = s.result := rfl

@[simp] theorem putStamps_cfg (s : State) (us ms : ClkWord) : (putStamps s us ms).cfg = s.cfg := rfl
@[simp] theorem putStamps_steps (s : State) (us ms : ClkWord) : (putStamps s us ms).steps = s.steps := rfl
@[simp] theorem putStamps_interval (s : State) (us ms : ClkWord) : (putStamps s us ms).interval = s.interval := rfl
@[simp] theorem putStamps_accelUntil (s : State) (us ms : ClkWord) : (putStamps s us ms).accelUntil = s.accelUntil := rfl
@[simp] theorem putStamps_decelBelow (s : State) (us ms : ClkWord) : (putStamps s us ms).decelBelow = s.decelBelow := rfl
@[simp] theorem putStamps_seqStart (s : State) (us ms : ClkWord) : (putStamps s us ms).seqStart = s.seqStart := rfl
@[simp] theorem putStamps_seqStep (s : State) (us ms : ClkWord) : (putStamps s us ms).seqStep = s.seqStep := rfl
@[simp] theorem putStamps_seqIdx (s : State) (us ms : ClkWord) : (putStamps s us ms).seqIdx = s.seqIdx := rfl
@[simp] theorem putStamps_lastStepUs (s : State) (us ms : ClkWord) : (putStamps s us ms).lastStepUs = us := rfl
@[simp] theorem putStamps_actKind (s : State) (us ms : ClkWord) : (putStamps s us ms).actKind = s.actKind := rfl
@[simp] theorem putStamps_coilR (s : State) (us ms : ClkWord) : (putStamps s us ms).coilR = s.coilR := rfl
@[simp] theorem putStamps_coilL (s : State) (us ms : ClkWord) : (putStamps s us ms).coilL = s.coilL := rfl
@[simp] theorem putStamps_actMs (s : State) (us ms : ClkWord) : (putStamps s us ms).actMs = ms := rfl
@[simp] theorem putStamps_wiring (s : State) (us ms : ClkWord) : (putStamps s us ms).wiring = s.wiring := rfl
@[simp] theorem putStamps_outInit (s : State) (us ms : ClkWord) : (putStamps s us ms).outInit = s.outInit := rfl
@[simp] theorem putStamps_ports (s : State) (us ms : ClkWord) : (putStamps s us ms).ports = s.ports := rfl
@[simp] theorem putStamps_fault (s : State) (us ms : ClkWord) : (putStamps s us ms).fault = s.fault := rfl
@[simp] theorem putStamps_refused (s : State) (us ms : ClkWord) : (putStamps s us ms).refused = s.refused := rfl
@[simp] theorem putStamps_stream (s : State) (us ms : ClkWord) : (putStamps s us ms).stream = s.stream := rfl
@[simp] theorem putStamps_result (s : State) (us ms : ClkWord) : (putStamps s us ms).result = s.result := rfl

@[simp] theorem putPorts_cfg (s : State) (ps : Ports) : (putPorts s ps).cfg = s.cfg := rfl
@[simp] theorem putPorts_steps (s : State) (ps : Ports) : (putPorts s ps).steps = s.steps := rfl
@[simp] theorem putPorts_interval (s : State) (ps : Ports) : (putPorts s ps).interval = s.interval := rfl
@[simp] theorem putPorts_accelUntil (s : State) (ps : Ports) : (putPorts s ps).accelUntil = s.accelUntil := rfl
@[simp] theorem putPorts_decelBelow (s : State) (ps : Ports) : (putPorts s ps).decelBelow = s.decelBelow := rfl
@[simp] theorem putPorts_seqStart (s : State) (ps : Ports) : (putPorts s ps).seqStart = s.seqStart := rfl
@[simp] theorem putPorts_seqStep (s : State) (ps : Ports) : (putPorts s ps).seqStep = s.seqStep := rfl
@[simp] theorem putPorts_seqIdx (s : State) (ps : Ports) : (putPorts s ps).seqIdx = s.seqIdx := rfl
@[simp] theorem putPorts_lastStepUs (s : State) (ps : Ports) : (putPorts s ps).lastStepUs = s.lastStepUs := rfl
@[simp] theorem putPorts_actKind (s : State) (ps : Ports) : (putPorts s ps).actKind = s.actKind := rfl
@[simp] theorem putPorts_coilR (s : State) (ps : Ports) : (putPorts s ps).coilR = s.coilR := rfl
@[simp] theorem putPorts_coilL (s : State) (ps : Ports) : (putPorts s ps).coilL = s.coilL := rfl
@[simp] theorem putPorts_actMs (s : State) (ps : Ports) : (putPorts s ps).actMs = s.actMs := rfl
@[simp] theorem putPorts_wiring (s : State) (ps : Ports) : (putPorts s ps).wiring = s.wiring := rfl
@[simp] theorem putPorts_outInit (s : State) (ps : Ports) : (putPorts s ps).outInit = s.outInit := rfl
@[simp] theorem putPorts_ports (s : State) (ps : Ports) : (putPorts s ps).ports = ps := rfl
@[simp] theorem putPorts_fault (s : State) (ps : Ports) : (putPorts s ps).fault = s.fault := rfl
@[simp] theorem putPorts_refused (s : State) (ps : Ports) : (putPorts s ps).refused = s.refused := rfl
@[simp] theorem putPorts_stream (s : State) (ps : Ports) : (putPorts s ps).stream = s.stream := rfl
@[simp] theorem putPorts_result (s : State) (ps : Ports) : (putPorts s ps).result = s.result := rfl

@[simp] theorem dropEvent_cfg (s : State) : (dropEvent s).cfg = s.cfg := rfl
@[simp] theorem dropEvent_steps (s : State) : (dropEvent s).steps = s.steps := rfl
@[simp] theorem dropEvent_interval (s : State) : (dropEvent s).interval = s.interval := rfl
@[simp] theorem dropEvent_accelUntil (s : State) : (dropEvent s).accelUntil = s.accelUntil := rfl
@[simp] theorem dropEvent_decelBelow (s : State) : (dropEvent s).decelBelow = s.decelBelow := rfl
@[simp] theorem dropEvent_seqStart (s : State) : (dropEvent s).seqStart = s.seqStart := rfl
@[simp] theorem dropEvent_seqStep (s : State) : (dropEvent s).seqStep = s.seqStep := rfl
@[simp] theorem dropEvent_seqIdx (s : State) : (dropEvent s).seqIdx = s.seqIdx := rfl
@[simp] theorem dropEvent_lastStepUs (s : State) : (dropEvent s).lastStepUs = s.lastStepUs := rfl
@[simp] theorem dropEvent_actKind (s : State) : (dropEvent s).actKind = s.actKind := rfl
@[simp] theorem dropEvent_coilR (s : State) : (dropEvent s).coilR = s.coilR := rfl
@[simp] theorem dropEvent_coilL (s : State) : (dropEvent s).coilL = s.coilL := rfl
@[simp] theorem dropEvent_actMs (s : State) : (dropEvent s).actMs = s.actMs := rfl
@[simp] theorem dropEvent_wiring (s : State) : (dropEvent s).wiring = s.wiring := rfl
@[simp] theorem dropEvent_outInit (s : State) : (dropEvent s).outInit = s.outInit := rfl
@[simp] theorem dropEvent_ports (s : State) : (dropEvent s).ports = s.ports := rfl
@[simp] theorem dropEvent_fault (s : State) : (dropEvent s).fault = s.fault := rfl
@[simp] theorem dropEvent_refused (s : State) : (dropEvent s).refused = s.refused := rfl
@[simp] theorem dropEvent_stream (s : State) : (dropEvent s).stream = s.stream.tail := rfl
@[simp] theorem dropEvent_result (s : State) : (dropEvent s).result = s.result := rfl

@[simp] theorem pushEvent_cfg (s : State) (e : HostEvent) : (pushEvent s e).cfg = s.cfg := rfl
@[simp] theorem pushEvent_steps (s : State) (e : HostEvent) : (pushEvent s e).steps = s.steps := rfl
@[simp] theorem pushEvent_interval (s : State) (e : HostEvent) : (pushEvent s e).interval = s.interval := rfl
@[simp] theorem pushEvent_accelUntil (s : State) (e : HostEvent) : (pushEvent s e).accelUntil = s.accelUntil := rfl
@[simp] theorem pushEvent_decelBelow (s : State) (e : HostEvent) : (pushEvent s e).decelBelow = s.decelBelow := rfl
@[simp] theorem pushEvent_seqStart (s : State) (e : HostEvent) : (pushEvent s e).seqStart = s.seqStart := rfl
@[simp] theorem pushEvent_seqStep (s : State) (e : HostEvent) : (pushEvent s e).seqStep = s.seqStep := rfl
@[simp] theorem pushEvent_seqIdx (s : State) (e : HostEvent) : (pushEvent s e).seqIdx = s.seqIdx := rfl
@[simp] theorem pushEvent_lastStepUs (s : State) (e : HostEvent) : (pushEvent s e).lastStepUs = s.lastStepUs := rfl
@[simp] theorem pushEvent_actKind (s : State) (e : HostEvent) : (pushEvent s e).actKind = s.actKind := rfl
@[simp] theorem pushEvent_coilR (s : State) (e : HostEvent) : (pushEvent s e).coilR = s.coilR := rfl
@[simp] theorem pushEvent_coilL (s : State) (e : HostEvent) : (pushEvent s e).coilL = s.coilL := rfl
@[simp] theorem pushEvent_actMs (s : State) (e : HostEvent) : (pushEvent s e).actMs = s.actMs := rfl
@[simp] theorem pushEvent_wiring (s : State) (e : HostEvent) : (pushEvent s e).wiring = s.wiring := rfl
@[simp] theorem pushEvent_outInit (s : State) (e : HostEvent) : (pushEvent s e).outInit = s.outInit := rfl
@[simp] theorem pushEvent_ports (s : State) (e : HostEvent) : (pushEvent s e).ports = s.ports := rfl
@[simp] theorem pushEvent_fault (s : State) (e : HostEvent) : (pushEvent s e).fault = s.fault := rfl
@[simp] theorem pushEvent_refused (s : State) (e : HostEvent) : (pushEvent s e).refused = s.refused := rfl
@[simp] theorem pushEvent_stream (s : State) (e : HostEvent) : (pushEvent s e).stream = e :: s.stream := rfl
@[simp] theorem pushEvent_result (s : State) (e : HostEvent) : (pushEvent s e).result = s.result := rfl

@[simp] theorem recordFault_cfg (s : State) (r : Fault) : (recordFault s r).cfg = s.cfg := rfl
@[simp] theorem recordFault_steps (s : State) (r : Fault) : (recordFault s r).steps = s.steps := rfl
@[simp] theorem recordFault_interval (s : State) (r : Fault) : (recordFault s r).interval = s.interval := rfl
@[simp] theorem recordFault_accelUntil (s : State) (r : Fault) : (recordFault s r).accelUntil = s.accelUntil := rfl
@[simp] theorem recordFault_decelBelow (s : State) (r : Fault) : (recordFault s r).decelBelow = s.decelBelow := rfl
@[simp] theorem recordFault_seqStart (s : State) (r : Fault) : (recordFault s r).seqStart = s.seqStart := rfl
@[simp] theorem recordFault_seqStep (s : State) (r : Fault) : (recordFault s r).seqStep = s.seqStep := rfl
@[simp] theorem recordFault_seqIdx (s : State) (r : Fault) : (recordFault s r).seqIdx = s.seqIdx := rfl
@[simp] theorem recordFault_lastStepUs (s : State) (r : Fault) : (recordFault s r).lastStepUs = s.lastStepUs := rfl
@[simp] theorem recordFault_actKind (s : State) (r : Fault) : (recordFault s r).actKind = s.actKind := rfl
@[simp] theorem recordFault_coilR (s : State) (r : Fault) : (recordFault s r).coilR = s.coilR := rfl
@[simp] theorem recordFault_coilL (s : State) (r : Fault) : (recordFault s r).coilL = s.coilL := rfl
@[simp] theorem recordFault_actMs (s : State) (r : Fault) : (recordFault s r).actMs = s.actMs := rfl
@[simp] theorem recordFault_wiring (s : State) (r : Fault) : (recordFault s r).wiring = s.wiring := rfl
@[simp] theorem recordFault_outInit (s : State) (r : Fault) : (recordFault s r).outInit = s.outInit := rfl
@[simp] theorem recordFault_ports (s : State) (r : Fault) : (recordFault s r).ports = s.ports := rfl
@[simp] theorem recordFault_fault (s : State) (r : Fault) : (recordFault s r).fault = some ⟨r, headCommand s⟩ := rfl
@[simp] theorem recordFault_refused (s : State) (r : Fault) : (recordFault s r).refused = s.refused := rfl
@[simp] theorem recordFault_stream (s : State) (r : Fault) : (recordFault s r).stream = s.stream := rfl
@[simp] theorem recordFault_result (s : State) (r : Fault) : (recordFault s r).result = s.result := rfl

@[simp] theorem recordRefusal_cfg (s : State) (r : Refusal) : (recordRefusal s r).cfg = s.cfg := rfl
@[simp] theorem recordRefusal_steps (s : State) (r : Refusal) : (recordRefusal s r).steps = s.steps := rfl
@[simp] theorem recordRefusal_interval (s : State) (r : Refusal) : (recordRefusal s r).interval = s.interval := rfl
@[simp] theorem recordRefusal_accelUntil (s : State) (r : Refusal) : (recordRefusal s r).accelUntil = s.accelUntil := rfl
@[simp] theorem recordRefusal_decelBelow (s : State) (r : Refusal) : (recordRefusal s r).decelBelow = s.decelBelow := rfl
@[simp] theorem recordRefusal_seqStart (s : State) (r : Refusal) : (recordRefusal s r).seqStart = s.seqStart := rfl
@[simp] theorem recordRefusal_seqStep (s : State) (r : Refusal) : (recordRefusal s r).seqStep = s.seqStep := rfl
@[simp] theorem recordRefusal_seqIdx (s : State) (r : Refusal) : (recordRefusal s r).seqIdx = s.seqIdx := rfl
@[simp] theorem recordRefusal_lastStepUs (s : State) (r : Refusal) : (recordRefusal s r).lastStepUs = s.lastStepUs := rfl
@[simp] theorem recordRefusal_actKind (s : State) (r : Refusal) : (recordRefusal s r).actKind = s.actKind := rfl
@[simp] theorem recordRefusal_coilR (s : State) (r : Refusal) : (recordRefusal s r).coilR = s.coilR := rfl
@[simp] theorem recordRefusal_coilL (s : State) (r : Refusal) : (recordRefusal s r).coilL = s.coilL := rfl
@[simp] theorem recordRefusal_actMs (s : State) (r : Refusal) : (recordRefusal s r).actMs = s.actMs := rfl
@[simp] theorem recordRefusal_wiring (s : State) (r : Refusal) : (recordRefusal s r).wiring = s.wiring := rfl
@[simp] theorem recordRefusal_outInit (s : State) (r : Refusal) : (recordRefusal s r).outInit = s.outInit := rfl
@[simp] theorem recordRefusal_ports (s : State) (r : Refusal) : (recordRefusal s r).ports = s.ports := rfl
@[simp] theorem recordRefusal_fault (s : State) (r : Refusal) : (recordRefusal s r).fault = s.fault := rfl
@[simp] theorem recordRefusal_refused (s : State) (r : Refusal) : (recordRefusal s r).refused = some ⟨r, refusedWord s r⟩ := rfl
@[simp] theorem recordRefusal_stream (s : State) (r : Refusal) : (recordRefusal s r).stream = s.stream := rfl
@[simp] theorem recordRefusal_result (s : State) (r : Refusal) : (recordRefusal s r).result = s.result := rfl

end Sys2Proof.Machine
end

