-- ==== Sys2Proof/Laws/Ports.lean ====
section
/-! SUPPORT. What the port operations do, bit by bit (20_memory.md R48, R49), and that each keeps the port space well formed. -/

namespace Sys2Proof.Machine

@[simp] theorem testBit_andNot (v m b : Nat) : (andNot v m).testBit b = (v.testBit b && !m.testBit b) := by
  simp only [andNot, Nat.testBit_xor, Nat.testBit_and]
  cases v.testBit b <;> cases m.testBit b <;> rfl

/-- Every logical line is listed (20_memory.md R48). -/
theorem mem_coilLines (i : Fin 8) : i ∈ coilLines := by
  revert i; decide

/-- A bit is in the mask of a port exactly when the map names it. -/
theorem testBit_lineMask (m : WiringMap) (p b : Nat) :
    (lineMask m p).testBit b = true ↔ ∃ i : Fin 8, (lineBit m i).port = p ∧ (lineBit m i).bit = b := by
  have key : ∀ l : List (Fin 8), ((l.foldr (fun i acc => if (lineBit m i).port = p then acc ||| 2 ^ (lineBit m i).bit else acc) 0).testBit b = true
      ↔ ∃ i ∈ l, (lineBit m i).port = p ∧ (lineBit m i).bit = b) := by
    intro l
    induction l with
    | nil => simp
    | cons i l ih =>
      simp only [List.foldr_cons, List.mem_cons, exists_eq_or_imp]
      split
      · next h => rw [Nat.testBit_or, Bool.or_eq_true, ih, Nat.testBit_two_pow]; simp [h, or_comm]
      · next h => rw [ih]; simp [h]
  rw [lineMask, key]
  constructor
  · rintro ⟨i, _, h⟩; exact ⟨i, h⟩
  · rintro ⟨i, h⟩; exact ⟨i, mem_coilLines i, h⟩

/-- A bit is in the image of a port exactly when the map names it for a line whose COIL_OUT bit is 1. -/
theorem testBit_lineImage (m : WiringMap) (out : BitVec 8) (p b : Nat) :
    (lineImage m out p).testBit b = true ↔ ∃ i : Fin 8, (lineBit m i).port = p ∧ (lineBit m i).bit = b ∧ out[i] = true := by
  have key : ∀ l : List (Fin 8),
      ((l.foldr (fun i acc => if (lineBit m i).port = p ∧ out[i] = true then acc ||| 2 ^ (lineBit m i).bit else acc) 0).testBit b = true
      ↔ ∃ i ∈ l, (lineBit m i).port = p ∧ (lineBit m i).bit = b ∧ out[i] = true) := by
    intro l
    induction l with
    | nil => simp
    | cons i l ih =>
      simp only [List.foldr_cons, List.mem_cons, exists_eq_or_imp]
      split
      · next h => rw [Nat.testBit_or, Bool.or_eq_true, ih, Nat.testBit_two_pow]; simp only [h.1, h.2, true_and, and_true, decide_eq_true_eq]; exact or_comm
      · next h =>
        rw [ih]
        constructor
        · exact Or.inr
        · rintro (⟨h1, _, h3⟩ | h')
          · exact absurd ⟨h1, h3⟩ h
          · exact h'
  rw [lineImage, key]
  constructor
  · rintro ⟨i, _, h⟩; exact ⟨i, h⟩
  · rintro ⟨i, h⟩; exact ⟨i, mem_coilLines i, h⟩

/-- Reading a port after a change of every port's value, the name deciding the change. -/
theorem portRead_map (g : Nat → Nat → Nat) (ps : Ports) (p : Nat) (hp : p ∈ ps.map Prod.fst) :
    portRead (ps.map fun c => (c.1, g c.1 c.2)) p = g p (portRead ps p) := by
  induction ps with
  | nil => simp at hp
  | cons c ps ih =>
    obtain ⟨q, v⟩ := c
    by_cases h : q = p
    · subst h; simp [portRead]
    · have hp' : p ∈ ps.map Prod.fst := by
        simp only [List.map_cons, List.mem_cons] at hp
        exact hp.resolve_left fun e => h e.symm
      simpa [portRead, h] using ih hp'

/-- A name that is no port reads as 0. -/
theorem portRead_absent (ps : Ports) (p : Nat) (h : p ∉ ps.map Prod.fst) : portRead ps p = 0 := by
  induction ps with
  | nil => rfl
  | cons c ps ih =>
    obtain ⟨q, v⟩ := c
    simp only [List.map_cons, List.mem_cons, not_or] at h
    rw [portRead, if_neg (Ne.symm h.1), ih h.2]

/-- What the masked write leaves on a port (20_memory.md R49). -/
theorem portRead_maskedWrite (m : WiringMap) (out : BitVec 8) (ps : Ports) (p : Nat) (h : p ∈ ps.map Prod.fst) :
    portRead (maskedWrite m out ps) p = andNot (portRead ps p) (lineMask m p) ||| lineImage m out p := by
  rw [maskedWrite, portRead_map (fun q v => andNot v (lineMask m q) ||| lineImage m out q) ps p h]

/-- Read after write, same port (20_memory.md R47). -/
theorem portRead_portWrite_same (ps : Ports) (p v : Nat) (h : p ∈ ps.map Prod.fst) : portRead (portWrite ps p v) p = v := by
  have hw : portWrite ps p v = ps.map fun c => (c.1, if c.1 = p then v else c.2) := by
    apply List.map_congr_left
    intro c _
    split <;> rfl
  rw [hw, portRead_map (fun q w => if q = p then v else w) ps p h, if_pos rfl]

/-- Read after write, another port. -/
theorem portRead_portWrite_other (ps : Ports) (p q v : Nat) (h : q ≠ p) : portRead (portWrite ps p v) q = portRead ps q := by
  induction ps with
  | nil => rfl
  | cons c ps ih =>
    obtain ⟨r, w⟩ := c
    rw [show portWrite ((r, w) :: ps) p v = (if r = p then (r, v) else (r, w)) :: portWrite ps p v from rfl]
    by_cases hr : r = p
    · have hq : ¬p = q := fun e => h e.symm
      simp [hr, portRead, hq, ih]
    · simp [hr, portRead, ih]

@[simp] theorem map_fst_maskedWrite (m : WiringMap) (out : BitVec 8) (ps : Ports) :
    (maskedWrite m out ps).map Prod.fst = ps.map Prod.fst := by
  simp [maskedWrite, Function.comp_def]

@[simp] theorem map_fst_portWrite (ps : Ports) (p v : Nat) : (portWrite ps p v).map Prod.fst = ps.map Prod.fst := by
  simp only [portWrite, List.map_map]
  apply List.map_congr_left
  intro c _
  dsimp only [Function.comp]
  split <;> rfl

theorem portsWf_iff (c : Config) (ps : Ports) :
    portsWf c ps = true ↔ ps.map Prod.fst = c.portNames ∧ ∀ e ∈ ps, e.2 < 2 ^ c.wPort := by
  simp [portsWf]

/-- A map inside W_PORT gives a mask of W_PORT bits. -/
theorem lineMask_lt (m : WiringMap) (p w : Nat) (h : ∀ i : Fin 8, (lineBit m i).bit < w) : lineMask m p < 2 ^ w := by
  apply Nat.lt_pow_two_of_testBit
  intro b hb
  by_contra hn
  obtain ⟨i, _, hi⟩ := (testBit_lineMask m p b).1 (by simpa using hn)
  have := h i
  omega

/-- A map inside W_PORT gives an image of W_PORT bits. -/
theorem lineImage_lt (m : WiringMap) (out : BitVec 8) (p w : Nat) (h : ∀ i : Fin 8, (lineBit m i).bit < w) : lineImage m out p < 2 ^ w := by
  apply Nat.lt_pow_two_of_testBit
  intro b hb
  by_contra hn
  obtain ⟨i, _, hi, _⟩ := (testBit_lineImage m out p b).1 (by simpa using hn)
  have := h i
  omega

theorem andNot_lt (v m w : Nat) (h : v < 2 ^ w) : andNot v m < 2 ^ w := by
  apply Nat.lt_pow_two_of_testBit
  intro b hb
  rw [testBit_andNot, Nat.testBit_lt_two_pow (lt_of_lt_of_le h (Nat.pow_le_pow_right (by decide) hb))]
  rfl

/-- A legal map's lines stay inside W_PORT. -/
theorem bit_lt_of_mapInside (c : Config) (m : WiringMap) (h : mapInside c m = true) (i : Fin 8) : (lineBit m i).bit < c.wPort := by
  simp only [mapInside, List.all_eq_true, Bool.and_eq_true, decide_eq_true_eq] at h
  exact (h (lineBit m i) (by simp [lineBit])).2

/-- A legal map's lines stay on the ports of P_PORTS. -/
theorem port_mem_of_mapInside (c : Config) (m : WiringMap) (h : mapInside c m = true) (i : Fin 8) : (lineBit m i).port ∈ c.portNames := by
  simp only [mapInside, List.all_eq_true, Bool.and_eq_true, decide_eq_true_eq] at h
  exact (h (lineBit m i) (by simp [lineBit])).1

/-- A legal map is injective (20_memory.md R48). -/
theorem line_injective (m : WiringMap) (h : mapInjective m = true) (i j : Fin 8) (hij : lineBit m i = lineBit m j) : i = j := by
  simp only [mapInjective, decide_eq_true_eq] at h
  have := (List.Nodup.getElem_inj_iff h (i := i.1) (j := j.1) (hi := by simp) (hj := by simp)).1 (by simpa [lineBit] using hij)
  exact Fin.ext this

/-- The masked write keeps the port space well formed. -/
theorem portsWf_maskedWrite (c : Config) (m : WiringMap) (out : BitVec 8) (ps : Ports) (hm : mapInside c m = true)
    (h : portsWf c ps = true) : portsWf c (maskedWrite m out ps) = true := by
  rw [portsWf_iff] at h ⊢
  refine ⟨by rw [map_fst_maskedWrite]; exact h.1, ?_⟩
  intro e he
  obtain ⟨d, hd, rfl⟩ := List.mem_map.1 he
  have hb := bit_lt_of_mapInside c m hm
  exact Nat.or_lt_two_pow (andNot_lt _ _ _ (h.2 d hd)) (lineImage_lt m out _ _ hb)

/-- A port write of a W_PORT-bit value keeps the port space well formed. -/
theorem portsWf_portWrite (c : Config) (ps : Ports) (p v : Nat) (hv : v < 2 ^ c.wPort) (h : portsWf c ps = true) :
    portsWf c (portWrite ps p v) = true := by
  rw [portsWf_iff] at h ⊢
  refine ⟨by rw [map_fst_portWrite]; exact h.1, ?_⟩
  intro e he
  obtain ⟨d, hd, rfl⟩ := List.mem_map.1 he
  split
  · exact hv
  · exact h.2 d hd

/-- In a well-formed port space every value read is of W_PORT bits. -/
theorem portRead_lt (c : Config) (ps : Ports) (p : Nat) (h : portsWf c ps = true) : portRead ps p < 2 ^ c.wPort := by
  have h2 := ((portsWf_iff c ps).1 h).2
  clear h
  induction ps with
  | nil => simp [portRead]
  | cons e ps ih =>
    obtain ⟨q, v⟩ := e
    rw [portRead]
    split
    · exact h2 (q, v) (by simp)
    · exact ih fun e he => h2 e (List.mem_cons_of_mem _ he)

/-- The port space after reset is well formed, whatever the ports hold. -/
theorem portsWf_resetWith (c : Config) : portsWf c (State.resetWith c).ports = true := by
  rw [portsWf_iff]
  constructor
  · simp [State.resetWith, Function.comp_def]
  · intro e he
    obtain ⟨p, _, rfl⟩ := List.mem_map.1 he
    exact Nat.mod_lt _ (Nat.two_pow_pos _)

/-! ### What a coil write leaves on the ports -/

/-- The bound map of a legal configuration is injective and stays inside the port space. -/
theorem map_legal {c : Config} (h : configLegal c = true) (v : Variant) :
    mapInjective (wiringMap c v) = true ∧ mapInside c (wiringMap c v) = true := by
  simp only [configLegal, Bool.and_eq_true] at h
  cases v <;> simp [wiringMap, h]

/-- 20_memory.md R48: the masked write puts each line's bit at its place. -/
theorem maskedWrite_line {c : Config} {ps : Ports} (hc : configLegal c = true) (hp : portsWf c ps = true) (v : Variant)
    (out : BitVec 8) (i : Fin 8) :
    (portRead (maskedWrite (wiringMap c v) out ps) (lineBit (wiringMap c v) i).port).testBit
      (lineBit (wiringMap c v) i).bit = out[i] := by
  obtain ⟨hinj, hins⟩ := map_legal hc v
  have hmem : (lineBit (wiringMap c v) i).port ∈ ps.map Prod.fst := by
    rw [((portsWf_iff c ps).1 hp).1]
    exact port_mem_of_mapInside c _ hins i
  have hm : (lineMask (wiringMap c v) (lineBit (wiringMap c v) i).port).testBit (lineBit (wiringMap c v) i).bit = true :=
    (testBit_lineMask _ _ _).2 ⟨i, rfl, rfl⟩
  rw [portRead_maskedWrite _ _ _ _ hmem, Nat.testBit_or, testBit_andNot, hm]
  simp only [Bool.not_true, Bool.and_false, Bool.false_or]
  rw [Bool.eq_iff_iff, testBit_lineImage]
  constructor
  · rintro ⟨j, h1, h2, h3⟩
    have : j = i := by
      refine line_injective _ hinj j i ?_
      cases h : lineBit (wiringMap c v) j
      cases h' : lineBit (wiringMap c v) i
      simp_all
    rwa [this] at h3
  · intro h
    exact ⟨i, rfl, rfl, h⟩

/-- 20_memory.md R49: the masked write leaves every bit that the map does not name. -/
theorem maskedWrite_unnamed (m : WiringMap) (out : BitVec 8) (ps : Ports) (p b : Nat) (h : ∀ i, lineBit m i ≠ ⟨p, b⟩) :
    (portRead (maskedWrite m out ps) p).testBit b = (portRead ps p).testBit b := by
  by_cases hp : p ∈ ps.map Prod.fst
  · have h1 : (lineMask m p).testBit b = false := by
      by_contra hn
      obtain ⟨i, h1, h2⟩ := (testBit_lineMask _ _ _).1 (by simpa using hn)
      exact h i (by cases hh : lineBit m i; simp_all)
    have h2 : (lineImage m out p).testBit b = false := by
      by_contra hn
      obtain ⟨i, h1, h2, _⟩ := (testBit_lineImage _ _ _ _).1 (by simpa using hn)
      exact h i (by cases hh : lineBit m i; simp_all)
    simp [portRead_maskedWrite _ _ _ _ hp, Nat.testBit_or, testBit_andNot, h1, h2]
  · rw [portRead_absent _ _ hp, portRead_absent]
    simpa using hp

/-- 20_memory.md R53: the masked write is idempotent. -/
theorem maskedWrite_twice (m : WiringMap) (out : BitVec 8) (ps : Ports) :
    maskedWrite m out (maskedWrite m out ps) = maskedWrite m out ps := by
  simp only [maskedWrite, List.map_map]
  apply List.map_congr_left
  intro c _
  simp only [Function.comp, Prod.mk.injEq, true_and]
  apply Nat.eq_of_testBit_eq
  intro b
  have sub : (lineImage m out c.1).testBit b = true → (lineMask m c.1).testBit b = true := by
    rw [testBit_lineImage, testBit_lineMask]
    rintro ⟨i, h1, h2, _⟩
    exact ⟨i, h1, h2⟩
  simp only [Nat.testBit_or, testBit_andNot]
  cases h1 : (lineImage m out c.1).testBit b <;> cases h2 : (lineMask m c.1).testBit b <;> simp_all

end Sys2Proof.Machine
end

