-- ==== Sys2Proof/Laws/Ops.lean ====
section
/-! SUPPORT. Once for each shared operation and each meaning: what it answers. The provers cite these instead of unfolding. -/

namespace Sys2Proof.Machine

/-! ### Sequencing -/

@[simp] theorem andThen_next (t : State) (f : State → Result) : andThen (.next t) f = f t := rfl
@[simp] theorem andThen_fault (r : Fault) (f : State → Result) : andThen (.fault r) f = .fault r := rfl
@[simp] theorem andThen_refused (r : Refusal) (f : State → Result) : andThen (.refused r) f = .refused r := rfl

theorem andThen_eq_next {o : Result} {f : State → Result} {t : State} :
    andThen o f = .next t ↔ ∃ u, o = .next u ∧ f u = .next t := by
  cases o <;> simp

theorem andThen_eq_fault {o : Result} {f : State → Result} {r : Fault} :
    andThen o f = .fault r ↔ o = .fault r ∨ ∃ u, o = .next u ∧ f u = .fault r := by
  cases o <;> simp

theorem andThen_eq_refused {o : Result} {f : State → Result} {r : Refusal} :
    andThen o f = .refused r ↔ o = .refused r ∨ ∃ u, o = .next u ∧ f u = .refused r := by
  cases o <;> simp

/-! ### The coil write -/

/-- On a booted block the primitive writes the coils and the ports (40_coil_driver.md R85). -/
theorem setCoilsInternal_booted {s : State} {v : Variant} (h : Booted s v) (r l : Pattern) :
    setCoilsInternal r l s = .next (putCoils s r l (maskedWrite (wiringMap s.cfg v) (l ++ r) s.ports)) := by
  simp [setCoilsInternal, h.1, h.2]

/-- On a block that is not booted the primitive faults (40_coil_driver.md R85). -/
theorem setCoilsInternal_unbooted {s : State} (h : ∀ v, ¬ Booted s v) (r l : Pattern) :
    setCoilsInternal r l s = .fault .notInitialised := by
  unfold setCoilsInternal
  split
  · rfl
  · next v hv => rw [if_neg fun ho => h v ⟨hv, ho⟩]

/-- Everything the primitive can answer: booted and written, or not booted and a fault. -/
theorem setCoilsInternal_cases (r l : Pattern) (s : State) :
    (∃ v, Booted s v ∧
      setCoilsInternal r l s = .next (putCoils s r l (maskedWrite (wiringMap s.cfg v) (l ++ r) s.ports))) ∨
    ((∀ v, ¬ Booted s v) ∧ setCoilsInternal r l s = .fault .notInitialised) := by
  by_cases h : ∃ v, Booted s v
  · obtain ⟨v, hv⟩ := h
    exact .inl ⟨v, hv, setCoilsInternal_booted hv r l⟩
  · exact .inr ⟨fun v hv => h ⟨v, hv⟩, setCoilsInternal_unbooted (fun v hv => h ⟨v, hv⟩) r l⟩

/-- What a coil write that gave a next state did. -/
theorem setCoilsInternal_eq_next {r l : Pattern} {s t : State} (h : setCoilsInternal r l s = .next t) :
    ∃ v, Booted s v ∧ t = putCoils s r l (maskedWrite (wiringMap s.cfg v) (l ++ r) s.ports) := by
  obtain ⟨v, hv, e⟩ | ⟨_, e⟩ := setCoilsInternal_cases r l s
  · rw [e] at h
    cases h
    exact ⟨v, hv, rfl⟩
  · rw [e] at h
    cases h

/-! ### The direction of an armed action -/

/-- `armDirection` changes SEQ_START and SEQ_STEP at most. -/
theorem armDirection_eq (k : Kind) (s : State) :
    armDirection k s = putDirection s (armDirection k s).seqStart (armDirection k s).seqStep := by
  cases k <;> rfl

/-- `moveIndex` changes SEQ_IDX at most. -/
theorem moveIndex_eq (s : State) : moveIndex s = putIndex s (moveIndex s).seqIdx := by
  unfold moveIndex
  split <;> rfl

/-! ### The drive of a step -/

/-- Everything the drive of a step can answer: a coil write of a linear or a turn action (41_action_engine.md R110, R111), a
fault of one on a block that is not booted, or nothing. -/
theorem driveCoils_cases (s : State) :
    (∃ v, Booted s v ∧ kindClass s.actKind = .linear ∧ driveCoils s = .next (putCoils s (seqAt s.cfg (3 - s.seqIdx))
      (seqAt s.cfg s.seqIdx) (maskedWrite (wiringMap s.cfg v) (seqAt s.cfg s.seqIdx ++ seqAt s.cfg (3 - s.seqIdx)) s.ports))) ∨
    (∃ v, Booted s v ∧ kindClass s.actKind = .turn ∧ driveCoils s = .next (putCoils s (seqAt s.cfg s.seqIdx)
      (seqAt s.cfg s.seqIdx) (maskedWrite (wiringMap s.cfg v) (seqAt s.cfg s.seqIdx ++ seqAt s.cfg s.seqIdx) s.ports))) ∨
    ((∀ v, ¬ Booted s v) ∧ (kindClass s.actKind = .linear ∨ kindClass s.actKind = .turn) ∧
      driveCoils s = .fault .notInitialised) ∨
    ((kindClass s.actKind = .pause ∨ kindClass s.actKind = .invalid) ∧ driveCoils s = .next s) := by
  unfold driveCoils
  cases hk : kindClass s.actKind with
  | linear =>
    obtain ⟨v, hv, e⟩ | ⟨hn, e⟩ := setCoilsInternal_cases (seqAt s.cfg (3 - s.seqIdx)) (seqAt s.cfg s.seqIdx) s
    · exact .inl ⟨v, hv, rfl, e⟩
    · exact .inr (.inr (.inl ⟨hn, .inl rfl, e⟩))
  | turn =>
    obtain ⟨v, hv, e⟩ | ⟨hn, e⟩ := setCoilsInternal_cases (seqAt s.cfg s.seqIdx) (seqAt s.cfg s.seqIdx) s
    · exact .inr (.inl ⟨v, hv, rfl, e⟩)
    · exact .inr (.inr (.inl ⟨hn, .inr rfl, e⟩))
  | pause => exact .inr (.inr (.inr ⟨.inl rfl, rfl⟩))
  | invalid => exact .inr (.inr (.inr ⟨.inr rfl, rfl⟩))

/-! ### ADVANCE -/

/-- The three ways of ADVANCE (41_action_engine.md R105): idle, the timing gate, a step. -/
theorem execAdvance_cases (ms us : ClkWord) (s : State) :
    (s.steps = 0 ∧ execAdvance ms us s = .next (putResult s (some .idle))) ∨
    (s.steps ≠ 0 ∧ (elapsed us s.lastStepUs).toNat < s.interval.toNat ∧
      execAdvance ms us s = .next (putResult s (some .pending))) ∨
    (Due s us ∧ execAdvance ms us s = takeStep ms us s) := by
  unfold execAdvance Due
  by_cases h0 : s.steps = 0
  · exact .inl ⟨h0, if_pos h0⟩
  · by_cases hg : (elapsed us s.lastStepUs).toNat < s.interval.toNat
    · exact .inr (.inl ⟨h0, hg, by rw [if_neg h0, if_pos hg]⟩)
    · exact .inr (.inr ⟨⟨h0, Nat.le_of_not_lt hg⟩, by rw [if_neg h0, if_neg hg]⟩)

/-- What a step that gave a next state did: the drive of the coils first, then the rest (41_action_engine.md R107). -/
theorem takeStep_eq_next {ms us : ClkWord} {s t : State} (h : takeStep ms us s = .next t) :
    ∃ u, driveCoils (putInterval s (rampedInterval s)) = .next u ∧ t = finishStep ms us (moveIndex u) := by
  obtain ⟨u, hu, e⟩ := andThen_eq_next.1 h
  cases e
  exact ⟨u, hu, rfl⟩

/-- Everything an ADVANCE that answered a next state can have done: nothing but its status (idle, or before its time), or one
step, of a linear action, of a turn, or of a Pause (41_action_engine.md R105 to R116). -/
theorem execAdvance_eq_next {ms us : ClkWord} {s t : State} (h : execAdvance ms us s = .next t) :
    (s.steps = 0 ∧ t = putResult s (some .idle)) ∨
    (s.steps ≠ 0 ∧ ¬ Due s us ∧ t = putResult s (some .pending)) ∨
    (Due s us ∧ ∃ right left ports idx,
      t = { s with interval := rampedInterval s, coilR := right, coilL := left, ports := ports, seqIdx := idx,
                   steps := s.steps - 1, lastStepUs := us, actMs := ms,
                   result := some (if s.steps = 1 then .finished else .pending) } ∧
      ((∃ v, Booted s v ∧ kindClass s.actKind = .linear ∧ right = seqAt s.cfg (3 - s.seqIdx) ∧ left = seqAt s.cfg s.seqIdx ∧
          ports = maskedWrite (wiringMap s.cfg v) (left ++ right) s.ports ∧ idx = nextIndex s.seqIdx s.seqStart s.seqStep) ∨
        (∃ v, Booted s v ∧ kindClass s.actKind = .turn ∧ right = seqAt s.cfg s.seqIdx ∧ left = seqAt s.cfg s.seqIdx ∧
          ports = maskedWrite (wiringMap s.cfg v) (left ++ right) s.ports ∧ idx = nextIndex s.seqIdx s.seqStart s.seqStep) ∨
        ((kindClass s.actKind = .pause ∨ kindClass s.actKind = .invalid) ∧ right = s.coilR ∧ left = s.coilL ∧
          ports = s.ports ∧ idx = s.seqIdx))) := by
  obtain ⟨h0, e⟩ | ⟨h0, h1, e⟩ | ⟨hd, e⟩ := execAdvance_cases ms us s <;> rw [e] at h
  · cases h
    exact .inl ⟨h0, rfl⟩
  · cases h
    exact .inr (.inl ⟨h0, fun hd => absurd h1 (Nat.not_lt.2 hd.2), rfl⟩)
  · refine .inr (.inr ⟨hd, ?_⟩)
    obtain ⟨u, hu, rfl⟩ := takeStep_eq_next h
    rw [← stepStatus_pred]
    obtain ⟨v, hv, hk, e⟩ | ⟨v, hv, hk, e⟩ | ⟨_, _, e⟩ | ⟨hk, e⟩ := driveCoils_cases (putInterval s (rampedInterval s)) <;>
      rw [e] at hu <;> cases hu
    · refine ⟨_, _, _, _, ?_, .inl ⟨v, hv, hk, rfl, rfl, rfl, rfl⟩⟩
      rw [putInterval_actKind] at hk
      simp only [finishStep, moveIndex, putCoils_actKind, putInterval_actKind, hk]
      rfl
    · refine ⟨_, _, _, _, ?_, .inr (.inl ⟨v, hv, hk, rfl, rfl, rfl, rfl⟩)⟩
      rw [putInterval_actKind] at hk
      simp only [finishStep, moveIndex, putCoils_actKind, putInterval_actKind, hk]
      rfl
    · refine ⟨_, _, _, _, ?_, .inr (.inr ⟨hk, rfl, rfl, rfl, rfl⟩)⟩
      rw [putInterval_actKind] at hk
      obtain hk | hk := hk <;>
      · simp only [finishStep, moveIndex, putInterval_actKind, hk]
        rfl

/-! ### PREPARE -/

/-- Everything a PREPARE that answered a next state did: its count fits, and the action is armed (41_action_engine.md R93). -/
theorem execPrepare_eq_next {k : Kind} {value : Rat} {us : ClkWord} {s t : State} (h : execPrepare k value us s = .next t) :
    stepCount s.cfg (effectiveKind s.cfg k) value < 2 ^ 32 ∧
      t = putResult (arm (effectiveKind s.cfg k) (stepCount s.cfg (effectiveKind s.cfg k) value) us s) none := by
  simp only [execPrepare] at h
  split at h
  · cases h
  · next hn =>
    cases h
    exact ⟨Nat.lt_of_not_le hn, rfl⟩

/-! ### The next event -/

/-- A block with no mark and a legal configuration reads its stream. -/
theorem fetch_live {s : State} (h : Live s) : fetch s = fetchEvent s := by
  simp [fetch, h.1, h.2.1, h.2.2]

/-- The block fetches only when it is live: every other answer is a stop. -/
theorem live_of_fetch {s : State} (h : ∀ r, fetch s ≠ .faulted r) (h' : ∀ r, fetch s ≠ .refused r) : Live s := by
  unfold fetch at h h'
  cases hf : s.fault with
  | some f => rw [hf] at h; exact absurd rfl (h f.reason)
  | none =>
    cases hr : s.refused with
    | some r => rw [hf, hr] at h'; exact absurd rfl (h' r.reason)
    | none =>
      rw [hf, hr] at h'
      by_cases hc : configLegal s.cfg = true
      · exact ⟨hf, hr, hc⟩
      · simp [hc] at h'

/-- On a live block an operation next in the stream is decoded and, unless refused, executed. -/
theorem step_command {s : State} {c : Command} {rest : List HostEvent} (hl : Live s) (hs : s.stream = .command c :: rest) :
    step s = match decode c with
      | .ok i => exec i (dropEvent s)
      | .error e => .refused (refusalOfDecode e) := by
  rw [step, fetch_live hl, fetchEvent, hs]
  simp only
  cases decode c <;> rfl

/-- Everything a step that answers a next state can be: nothing issued, another owner's port write, or one operation on a live
block. Every invariant is derived from this. -/
theorem step_next_cases {s t : State} (h : step s = .next t) :
    Live s ∧ ((s.stream = [] ∧ t = s) ∨
      (∃ p v rest, s.stream = .otherOwnerWrite p v :: rest ∧ t = otherOwnerWrite p v (dropEvent s)) ∨
      (∃ c rest i, s.stream = .command c :: rest ∧ decode c = .ok i ∧ exec i (dropEvent s) = .next t)) := by
  have hl : Live s := by
    apply live_of_fetch <;> intro r hr <;> simp [step, hr] at h
  refine ⟨hl, ?_⟩
  rw [step, fetch_live hl, fetchEvent] at h
  cases hs : s.stream with
  | nil =>
    rw [hs] at h
    cases h
    exact .inl ⟨rfl, rfl⟩
  | cons e rest =>
    cases e with
    | otherOwnerWrite p v =>
      rw [hs] at h
      cases h
      exact .inr (.inl ⟨p, v, rest, rfl, rfl⟩)
    | command c =>
      rw [hs] at h
      simp only at h
      cases hd : decode c with
      | error e => rw [hd] at h; cases h
      | ok i => rw [hd] at h; exact .inr (.inr ⟨c, rest, i, rfl, hd, h⟩)

end Sys2Proof.Machine
end

