-- ==== Sys2Proof/Laws/PerInstr.lean ====
section
/-! SUPPORT. Statements made of every operation as it is written: one lemma per constructor. -/

namespace Sys2Proof.Laws.TableRow

open Sys2Proof

/-- The word of an operation selects its row of the opcode map, and no bit that its row ignores is set
(30_encoding.md R67, R71). -/
def Statement (i : Instr) : Prop := encodeWord i &&& rowMask i = rowMatch i ∧ encodeWord i &&& ignoredBits i = 0

theorem setWiring (v : Variant) : Statement (.setWiring v) := by cases v <;> exact ⟨rfl, rfl⟩

theorem initOutputs : Statement .initOutputs := ⟨rfl, rfl⟩

theorem setCoils (r l : Pattern) : Statement (.setCoils r l) := by
  unfold Statement
  revert r l
  decide +kernel

theorem disableCoils : Statement .disableCoils := ⟨rfl, rfl⟩

theorem prepare (k : Kind) (value : Rat) (nowUs : ClkWord) : Statement (.prepare k value nowUs) := by
  simp only [Statement, encodeWord, rowMask, rowMatch, ignoredBits]
  cases k <;> exact ⟨by decide, by decide⟩

theorem advance (nowMs nowUs : ClkWord) : Statement (.advance nowMs nowUs) := by
  simp only [Statement, encodeWord, rowMask, rowMatch, ignoredBits]
  exact ⟨by decide, by decide⟩

theorem stop (nowMs : ClkWord) : Statement (.stop nowMs) := by
  simp only [Statement, encodeWord, rowMask, rowMatch, ignoredBits]
  exact ⟨by decide, by decide⟩

end Sys2Proof.Laws.TableRow
end

