-- ==== Sys2Proof/Tests/Slice0.lean ====
section
/-! SUPPORT. The model's own tests. Expected results are those of 95_test_vectors.md and of the rules named; each is about one
operation or one word. After them, one witness for each statement that has hypotheses: a state and operands that meet them. -/

namespace Sys2Proof.Tests

-- one theorem at a time: each evaluation by the kernel waits for the theorems before it, and waiting ones hold a thread each
set_option Elab.async false

open Sys2Proof Sys2Proof.Machine Sys2Proof.Claims

/-! ### Helpers -/

/-- The outcome is a next state that satisfies `p`. -/
def after (o : Result) (p : State → Bool) : Bool :=
  match o with
  | .next t => p t
  | _ => false

/-- The outcome is this fault. -/
def faults (o : Result) (r : Fault) : Bool :=
  match o with
  | .fault q => decide (q = r)
  | _ => false

/-- The outcome is this refusal. -/
def refuses (o : Result) (r : Refusal) : Bool :=
  match o with
  | .refused q => decide (q = r)
  | _ => false

theorem after_spec {o : Result} {p : State → Bool} (h : after o p = true) : ∃ t, o = .next t ∧ p t = true := by
  cases o <;> simp_all [after]

theorem faults_spec {o : Result} {r : Fault} (h : faults o r = true) : o = .fault r := by
  cases o <;> simp_all [faults]

theorem refuses_spec {o : Result} {r : Refusal} (h : refuses o r = true) : o = .refused r := by
  cases o <;> simp_all [refuses]

/-- The reference configuration of 95_test_vectors.md with a drive sequence for these tests. -/
def cfg : Config := { Config.reference with seq := #v[1, 2, 4, 8] }

/-- A booted, idle block, the coils de-energised, both ports with their other bits set. -/
def booted : State where
  cfg := cfg
  steps := 0
  interval := 0
  accelUntil := 0
  decelBelow := 0
  seqStart := 0
  seqStep := .plus
  seqIdx := 0
  lastStepUs := 0
  actKind := .pause
  coilR := 0
  coilL := 0
  actMs := 0
  wiring := .bound .a
  outInit := true
  ports := [(0, 0xF0), (1, 0xF0)]
  fault := none
  refused := none
  stream := []
  result := none

/-- The same block before SET_WIRING and INIT_OUTPUTS. -/
def unbooted : State := { booted with wiring := .unbound, outInit := false }

/-- The block after `prepare FORWARD, 5, @7000` (41_action_engine.md R93's example). -/
def moving : State := { booted with
  actKind := .forward, steps := 500, interval := 1000, accelUntil := 300, decelBelow := 135, lastStepUs := 7000 }

/-- The block with this operation next in the stream. -/
def given (s : State) (w : CmdWord) : State := { s with stream := [.command ⟨w, 0, 0, 0⟩] }

/-! ### Well-formedness: an ill-formed term for each check -/

theorem test_wf_opcode : (Command.opcodeAssigned ⟨0x0, 0, 0, 0⟩, Command.opcodeAssigned ⟨0x8, 0, 0, 0⟩,
    Command.opcodeAssigned ⟨0x7, 0, 0, 0⟩) = (false, false, true) := by decide

/-- V-DE3, V-DE5, V-DE9, V-DE10, V-DE13, V-DE15: one word for each format, and V-DE8, which is well formed. -/
theorem test_wf_reserved : ([0x21, 0x12, 0x13, 0x01000003, 0x85, 0x106, 0x00F0F003].map fun w =>
    Command.reservedClear ⟨w, 0, 0, 0⟩) = [false, false, false, false, false, false, true] := by decide

theorem test_wf_command : (Command.wf ⟨0x8, 0, 0, 0⟩, Command.wf ⟨0x85, 0, 0, 0⟩, Command.wf ⟨0x75, 0, 0, 0⟩) =
    (false, false, true) := by decide

theorem test_wf_rates : (ratesLegal { cfg with spmm := -1 }, ratesLegal { cfg with spd := -1 }) = (false, false) := by
  decide +kernel

theorem test_wf_speed : speedLegal { cfg with sps := 0 } = false := by decide +kernel

/-- The base interval is 2^32, one too many. -/
theorem test_wf_baseInterval : baseIntervalLegal { cfg with usPerS := 2 ^ 32, sps := 1 } = false := by decide +kernel

/-- Two lines on one bit. -/
theorem test_wf_mapInjective : mapInjective (cfg.mapA.set 1 ⟨0, 0⟩) = false := by decide +kernel

/-- A bit above the port, and a port that is none. -/
theorem test_wf_mapInside : (mapInside cfg (cfg.mapA.set 1 ⟨0, 8⟩), mapInside cfg (cfg.mapA.set 1 ⟨2, 0⟩)) = (false, false) := by
  decide +kernel

theorem test_wf_ports : portsLegal { cfg with portNames := [0, 1, 0] } = false := by decide +kernel

theorem test_wf_fractions : (fractionsLegal { cfg with accelFrac := -1 }, fractionsLegal { cfg with accelFrac := 2 },
    fractionsLegal { cfg with decelFrac := -1 }, fractionsLegal { cfg with decelFrac := 2 }) = (false, false, false, false) := by
  decide +kernel

theorem test_wf_deltas : (deltasLegal { cfg with accelDelta := 2 ^ 32 }, deltasLegal { cfg with decelDelta := 2 ^ 32 }) =
    (false, false) := by decide +kernel

/-- The whole check refuses one ill-formed configuration for each of its parts, and admits the one of these tests. -/
theorem test_wf_config : (configLegal cfg, [{ cfg with spmm := -1 }, { cfg with sps := 0 },
    { cfg with usPerS := 2 ^ 32, sps := 1 }, { cfg with mapA := cfg.mapA.set 1 ⟨0, 0⟩ },
    { cfg with mapB := cfg.mapB.set 1 ⟨1, 4⟩ }, { cfg with mapA := cfg.mapA.set 1 ⟨0, 8⟩ },
    { cfg with mapB := cfg.mapB.set 1 ⟨2, 0⟩ }, { cfg with portNames := [0, 1, 0] }, { cfg with accelFrac := 2 },
    { cfg with accelDelta := 2 ^ 32 }].all fun c => !configLegal c) = (true, true) := by decide +kernel

/-- The port space: a value too wide, a missing port, an unknown port. -/
theorem test_wf_portSpace : (portsWf cfg [(0, 256), (1, 0)], portsWf cfg [(0, 0)], portsWf cfg [(0, 0), (2, 0)],
    portsWf cfg [(0, 255), (1, 0)]) = (false, false, false, true) := by decide +kernel

/-! ### Decoding: words written out from 30_encoding.md R64, R65, R67 -/

/-- Bits 31..5 zero, VAR = 1, OP = 0001 (V-DE1, V-DE2). -/
theorem test_decode_setWiring :
    decode ⟨0b000000000000000000000000000#27 ++ 1#1 ++ 0b0001#4, 0, 0, 0⟩ = .ok (.setWiring .b) ∧
    decode ⟨0x00000001, 0, 0, 0⟩ = .ok (.setWiring .a) := ⟨rfl, rfl⟩

/-- Bits 31..4 zero, OP = 0010 (V-DE4). -/
theorem test_decode_initOutputs : decode ⟨0#28 ++ 0b0010#4, 0, 0, 0⟩ = .ok .initOutputs := rfl

/-- `00000000 LLLLLLLL RRRRRRRR 0000oooo` with LEFT 0x3A, RIGHT 0xF5 (V-DE7), and V-DE8. -/
theorem test_decode_setCoils :
    decode ⟨0#8 ++ 0b00111010#8 ++ 0b11110101#8 ++ 0#4 ++ 0b0011#4, 0, 0, 0⟩ = .ok (.setCoils 0b0101 0b1010) ∧
    decode ⟨0x00F0F003, 0, 0, 0⟩ = .ok (.setCoils 0 0) := ⟨rfl, rfl⟩

/-- Bits 31..4 zero, OP = 0100 (V-DE11). -/
theorem test_decode_disableCoils : decode ⟨0#28 ++ 0b0100#4, 0, 0, 0⟩ = .ok .disableCoils := rfl

/-- `0 kkk oooo` with KIND 0 to 7 (V-DE12). -/
theorem test_decode_prepare : ([0, 1, 2, 3, 4, 5, 6, 7].map fun k => (decode ⟨0#25 ++ BitVec.ofNat 3 k ++ 0b0101#4, 5, 7, 0⟩).toOption) =
    [.forward, .backward, .turnLeft, .turnRight, .turnLeftAlt, .turnRightAlt, .pause, .invalid].map fun k =>
      some (.prepare k 5 7) := by decide

/-- Bits 31..4 zero, OP = 0110 (V-DE14); the readings come from the side operands of their names. -/
theorem test_decode_advance : decode ⟨0#28 ++ 0b0110#4, 0, 8000, 8⟩ = .ok (.advance 8 8000) := rfl

/-- Bits 31..4 zero, OP = 0111 (V-DE16). -/
theorem test_decode_stop : decode ⟨0#28 ++ 0b0111#4, 0, 0, 100⟩ = .ok (.stop 100) := rfl

/-- V-DE3, V-DE5, V-DE9, V-DE10, V-DE13, V-DE15. -/
theorem test_decode_reservedField : [0x21, 0x12, 0x13, 0x01000003, 0x85, 0x106].all (fun w =>
    match decode ⟨w, 0, 0, 0⟩ with
    | .error .reservedField => true
    | _ => false) = true := by decide

/-- V-DE17, V-DE18. -/
theorem test_decode_reservedOpcode : [0x0, 0x8, 0x9, 0xA, 0xB, 0xC, 0xD, 0xE, 0xF].all (fun w =>
    match decode ⟨w, 0, 0, 0⟩ with
    | .error .reservedOpcode => true
    | _ => false) = true := by decide

/-- What the host asks of a table word: decoded, and run by the very next step from reset. -/
theorem test_table_word : decodeTableWord 32 0x00000001 = some (.setWiring .a) ∧
    after (step (State.withFetchWord State.reset 32 0x00000001)) (fun t => t.wiring = .bound .a) = true ∧
    after (step (State.withFetchWord State.reset 32 0x00000005)) (fun t => t.actKind = .forward) = true ∧
    faults (step (State.withFetchWord State.reset 32 0x00000003)) .notInitialised = true := by decide +kernel

/-! ### The assembler syntax (30_encoding.md R75, R77) -/

theorem test_asm_coils : assembleLine "setcoils 0xF5, 0x3A ; upper nibbles ignored" = some (.operation ⟨0x003AF503, 0, 0, 0⟩) := by
  decide +kernel

theorem test_asm_prepare : assembleLine "prepare TURN_RIGHT_ALT, -12.5, @7000" = some (.operation ⟨0x55, -25 / 2, 7000, 0⟩) := by
  decide +kernel

theorem test_asm_readings : (assembleLine "advance @8, @8000", assembleLine "stop @100", assembleLine "stop 100") =
    (some (.operation ⟨6, 0, 8000, 8⟩), some (.operation ⟨7, 0, 0, 100⟩), none) := by decide +kernel

theorem test_asm_listing : listingText (.advance 0 1000) (some .pending) = "advance @0, @1000 -> PENDING" := by decide +kernel

/-! ### Meanings, at most two tests for each operation -/

/-- V-CD1. -/
theorem test_setWiring : after (exec (.setWiring .b) unbooted) (fun t =>
    t.wiring = .bound .b && t.outInit == false && t.ports == unbooted.ports) = true := by decide +kernel

/-- V-CD2, V-CD3. -/
theorem test_setWiring_again : (refuses (exec (.setWiring .b) booted) .wiringRebind,
    refuses (exec (.setWiring .a) booted) .wiringRebind) = (true, true) := by decide +kernel

/-- V-CD4, V-CD6. -/
theorem test_initOutputs_stops : (faults (exec .initOutputs unbooted) .notInitialised,
    refuses (exec .initOutputs booted) .outputsReinit) = (true, true) := by decide +kernel

/-- V-CD5. -/
theorem test_initOutputs : after (exec .initOutputs { booted with outInit := false }) (fun t => t.outInit) = true := by
  decide +kernel

/-- V-CD9 and V-CD11: under the map A of these tests, COIL_R is on the low bits of port 0 and COIL_L on those of port 1; the
high bits stay. -/
theorem test_setCoils : after (exec (.setCoils 0b0101 0b1010) booted) (fun t =>
    t.coilR = 0b0101 && t.coilL = 0b1010 && t.ports = [(0, 0xF5), (1, 0xFA)]) = true := by decide +kernel

/-- V-CD7, V-CD12. -/
theorem test_setCoils_unbooted : faults (exec (.setCoils 1 2) { booted with outInit := false }) .notInitialised = true ∧
    after (exec (.setCoils 0 0) { moving with steps := 7, seqIdx := 2 }) (fun t =>
      t.steps = 7 && t.seqIdx = 2 && t.interval = 1000) = true := by decide +kernel

/-- V-CD10. -/
theorem test_disableCoils : after (exec .disableCoils { booted with coilR := 0b0101, coilL := 0b1010, ports := [(0, 0xF5), (1, 0xFA)] })
    (fun t => t.coilR = 0 && t.coilL = 0 && t.ports = [(0, 0xF0), (1, 0xF0)]) = true := by decide +kernel

/-- V-CD8. -/
theorem test_disableCoils_unbooted : faults (exec .disableCoils unbooted) .notInitialised = true := by decide +kernel

/-- The example of 41_action_engine.md R93 (V-PR1, V-PR9). -/
theorem test_prepare : after (exec (.prepare .forward 5 7000) unbooted) (fun t =>
    t.steps = 500 && t.actKind = .forward && t.seqStart = 0 && t.seqStep = .plus && t.interval = 1000 && t.accelUntil = 300 &&
      t.decelBelow = 135 && t.lastStepUs = 7000 && t.seqIdx = 0) = true := by decide +kernel

/-- V-PR7: 2^32 steps, and one fewer. -/
theorem test_prepare_overflow : faults (exec (.prepare .forward (4294967296 / 100) 0) booted) .stepCountOverflow = true ∧
    after (exec (.prepare .forward (4294967295 / 100) 0) booted) (fun t =>
      t.steps = 4294967295 && t.accelUntil = 4294966950 && t.decelBelow = 230) = true := by decide +kernel

/-- V-AD1, V-AD3. -/
theorem test_advance : after (exec (.advance 7 7999) moving) (fun t => t = { moving with result := some .pending }) = true ∧
    after (exec (.advance 8 8000) moving) (fun t =>
      t.interval = 998 && t.coilR = 8 && t.coilL = 1 && t.seqIdx = 1 && t.steps = 499 && t.lastStepUs = 8000 && t.actMs = 8 &&
        t.result = some .pending) = true := by decide +kernel

/-- V-AD7: the index wrap of a BACKWARD action on its last step; V-AD5: the clock's wrap-around. -/
theorem test_advance_wraps : after (exec (.advance 9 900) { moving with
    actKind := .backward, seqStart := 3, seqStep := .minus, steps := 1, lastStepUs := 4294967196 }) (fun t =>
      t.coilR = 8 && t.coilL = 1 && t.seqIdx = 3 && t.result = some .finished && t.lastStepUs = 900) = true ∧
    after (exec (.advance 9 899) { moving with lastStepUs := 4294967196 }) (fun t => t.steps = 500) = true := by decide +kernel

/-- V-ST1. -/
theorem test_stop : after (exec (.stop 100) { moving with steps := 37, coilR := 4 }) (fun t =>
    t.steps = 0 && t.coilR = 4 && t.interval = 1000 && t.seqIdx = 0) = true := by decide +kernel

/-- A refused word and a faulting operation leave their marks and nothing else (R134, R135). -/
theorem test_marks : (runStep (given booted 0x85)).refused = some ⟨.reservedField, some 0x85⟩ ∧
    (runStep (given unbooted 0x00010003)).fault = some ⟨.notInitialised, some ⟨0x00010003, 0, 0, 0⟩⟩ ∧
    (runStep (given booted 0x85)).steps = 0 := by decide +kernel

/-! ### Witnesses: a state and operands that meet the hypotheses of each statement, clause by clause -/

theorem live_booted : Live booted := ⟨rfl, rfl, by decide +kernel⟩

theorem due_moving : Due moving 8000 := ⟨by decide, by decide⟩

theorem not_due_moving : ¬ Due moving 7999 := fun h => absurd h.2 (by decide)

theorem booted_booted : Booted booted .a := ⟨rfl, rfl⟩

theorem unbooted_not : (∀ v, ¬ Booted unbooted v) ∧ ∀ v, ¬ Booted { booted with outInit := false } v :=
  ⟨(fun _ h => nomatch h.1), (fun _ h => absurd h.2 (by decide))⟩

/-- DecodeReadsBackEveryEncoding: the extremes of every operand. -/
theorem witness_DecodeReadsBackEveryEncoding : (Instr.setCoils 0xF 0xF).wf = true ∧
    (Instr.prepare .invalid (-7 / 3) 0xFFFFFFFF).wf = true ∧ (Instr.stop 0).wf = true := ⟨rfl, rfl, rfl⟩

/-- IgnoredBitsAreTheOnlyFreedom: a decoded word with ignored bits set, for both clauses. -/
theorem witness_IgnoredBitsAreTheOnlyFreedom : decode ⟨0x003AF503, 0, 0, 0⟩ = .ok (.setCoils 5 10) ∧
    (0x003AF503 : CmdWord) &&& 0x0000000F = 3 := ⟨rfl, rfl⟩

/-- WordSelectsItsOpcodeRow: two operations of one row. -/
theorem witness_WordSelectsItsOpcodeRow : (0x00000011 : CmdWord) &&& rowMask (.setWiring .a) = rowMatch (.setWiring .a) ∧
    (0x00000011 : CmdWord) &&& rowMask (.setWiring .b) = rowMatch (.setWiring .b) := ⟨rfl, rfl⟩

theorem witness_StepRunsDecodedOperation : Live (given booted 0x00010003) ∧
    (given booted 0x00010003).stream = .command ⟨0x00010003, 0, 0, 0⟩ :: [] ∧
    decode ⟨0x00010003, 0, 0, 0⟩ = .ok (.setCoils 0 1) := ⟨⟨rfl, rfl, by decide +kernel⟩, rfl, rfl⟩

/-- ReservedWordIsRefused: both clauses, each at the lowest word of its kind. -/
theorem witness_ReservedWordIsRefused : Live (given booted 0) ∧ (given booted 0).stream = .command ⟨0, 0, 0, 0⟩ :: [] ∧
    (0 : CmdWord).extractLsb' 0 4 = 0 ∧ 8 ≤ ((8 : CmdWord).extractLsb' 0 4).toNat ∧
    (given booted 0x12).stream = .command ⟨0x12, 0, 0, 0⟩ :: [] ∧ Command.opcodeAssigned ⟨0x12, 0, 0, 0⟩ = true ∧
    Command.reservedClear ⟨0x12, 0, 0, 0⟩ = false :=
  ⟨⟨rfl, rfl, by decide +kernel⟩, rfl, by decide, by decide, rfl, by decide, by decide⟩

theorem witness_FaultIsFinal : Live (given unbooted 0x4) ∧ step (given unbooted 0x4) = .fault .notInitialised :=
  ⟨⟨rfl, rfl, by decide +kernel⟩, faults_spec (by decide +kernel)⟩

/-- RefusalIsFinal: an operation's refusal, and a configuration's. -/
theorem witness_RefusalIsFinal : step (given booted 0x1) = .refused .wiringRebind ∧
    configLegal { cfg with sps := 0 } = false ∧ step { booted with cfg := { cfg with sps := 0 } } = .refused .badConfiguration :=
  ⟨refuses_spec (by decide +kernel), by decide +kernel, refuses_spec (by decide +kernel)⟩

theorem witness_NothingIssuedNothingChanges : Live booted ∧ booted.stream = [] := ⟨live_booted, rfl⟩

/-- OtherOwnersKeepCoilBits: another port, a coil bit of the port written, its lowest other bit, its top bit, and the bit
above it. -/
theorem witness_OtherOwnersKeepCoilBits : Live { booted with stream := [.otherOwnerWrite 0 0x1FF] } ∧ (1 : Nat) ≠ 0 ∧
    isCoilBit booted 0 3 ∧ ¬ isCoilBit booted 0 4 ∧ ¬ isCoilBit booted 0 7 ∧ ¬ isCoilBit booted 0 8 ∧
    0 ∈ booted.ports.map Prod.fst := by
  refine ⟨⟨rfl, rfl, by decide +kernel⟩, by decide, ⟨.a, rfl, 3, rfl⟩, ?_, ?_, ?_, by decide⟩ <;>
  · rintro ⟨v, hv, i, hi⟩
    cases hv
    revert i
    decide +kernel

/-- SetWiringMeaning: unbound, and bound. -/
theorem witness_SetWiringMeaning : unbooted.wiring = .unbound ∧ booted.wiring = .bound .a := ⟨rfl, rfl⟩

/-- InitOutputsMeaning: bound and not initialised, unbound, bound and initialised. -/
theorem witness_InitOutputsMeaning :
    ({ booted with outInit := false } : State).wiring = .bound .a ∧ ({ booted with outInit := false } : State).outInit = false ∧
    unbooted.wiring = .unbound ∧ booted.outInit = true := ⟨rfl, rfl, rfl, rfl⟩

/-- SetCoilsMeaning and DisableCoilsMeaning: booted; unbound; bound and not initialised. -/
theorem witness_SetCoilsMeaning_DisableCoilsMeaning : Booted booted .a ∧ (∀ v, ¬ Booted unbooted v) ∧
    ∀ v, ¬ Booted { booted with outInit := false } v := ⟨booted_booted, unbooted_not⟩

/-- CoilWriteShowsCoilOut: each of the three operations. -/
theorem witness_CoilWriteShowsCoilOut : configLegal booted.cfg = true ∧ portsWf booted.cfg booted.ports = true ∧
    booted.wiring = .bound .a ∧ (∃ t, exec .disableCoils booted = .next t) ∧ (∃ t, exec (.setCoils 1 2) booted = .next t) ∧
    (∃ t, exec (.advance 8 8000) moving = .next t) ∧ Due moving 8000 ∧ linearKind moving.actKind ∧ turnKind .turnLeft := by
  refine ⟨by decide +kernel, by decide +kernel, rfl, ⟨_, rfl⟩, ⟨_, rfl⟩, ⟨_, rfl⟩, due_moving, .inl rfl, .inl rfl⟩

/-- OnlyMappedPortBitsChange: a coil write beside a bit that is no coil bit, and an operation that writes no coil. -/
theorem witness_OnlyMappedPortBitsChange : (∃ t, exec (.setCoils 5 10) booted = .next t) ∧ ¬ isCoilBit booted 0 4 ∧
    (∃ t, exec (.stop 0) booted = .next t) ∧ (Instr.stop 0 ≠ .disableCoils) :=
  ⟨⟨_, rfl⟩, witness_OtherOwnersKeepCoilBits.2.2.2.1, ⟨_, rfl⟩, by decide⟩

theorem witness_CoilWriteIsIdempotent : ∃ t, exec (.setCoils 5 10) booted = .next t := ⟨_, rfl⟩

/-- PrepareMeaning: the largest count that fits, and the smallest that does not. -/
theorem witness_PrepareMeaning :
    countOf cfg (kindUnder cfg.fixReversed .forward) (4294967295 / 100) < 2 ^ 32 ∧
    2 ^ 32 ≤ countOf cfg (kindUnder cfg.fixReversed .forward) (4294967296 / 100) := by decide +kernel

/-- PrepareInLegalConfiguration: the same two counts, in a legal configuration. -/
theorem witness_PrepareInLegalConfiguration : configLegal booted.cfg = true ∧
    countOf booted.cfg (kindUnder booted.cfg.fixReversed .forward) (4294967295 / 100) < 2 ^ 32 ∧
    2 ^ 32 ≤ countOf booted.cfg (kindUnder booted.cfg.fixReversed .forward) (4294967296 / 100) := by decide +kernel

/-- DefaultThresholds and DefaultPhasesNeverOverlap: the default profile, and an action of one step. -/
theorem witness_DefaultThresholds_DefaultPhasesNeverOverlap : booted.cfg.hasDefaultProfile ∧
    ∃ t, exec (.prepare .forward (1 / 100) 0) booted = .next t ∧ 1 ≤ t.steps.toNat := by
  obtain ⟨t, h, hp⟩ := after_spec (o := exec (.prepare .forward (1 / 100) 0) booted) (p := fun t => 1 ≤ t.steps.toNat)
    (by decide +kernel)
  exact ⟨⟨rfl, rfl, rfl, rfl, rfl, rfl, rfl, rfl⟩, t, h, by simpa using hp⟩

/-- ZeroStepActionsAreIdle: V-PR2a, and the largest magnitude below one step. -/
theorem witness_ZeroStepActionsAreIdle : countOf moving.cfg (kindUnder moving.cfg.fixReversed .forward) (9 / 1000) = 0 ∧
    countOf moving.cfg (kindUnder moving.cfg.fixReversed .turnLeft) (49 / 100) = 0 := by decide +kernel

/-- AltTurnsBehaveAsTurns: the mirror clause, for both turns. -/
theorem witness_AltTurnsBehaveAsTurns : ∃ s : State, s.cfg.fixReversed = true ∧
    (∃ t, exec (.prepare .turnLeftAlt 10 0) s = .next t) ∧ ∃ t, exec (.prepare .turnRightAlt 10 0) s = .next t := by
  refine ⟨{ booted with cfg := { cfg with fixReversed := true } }, rfl, ?_, ?_⟩
  · obtain ⟨t, h, _⟩ := after_spec (o := exec (.prepare .turnLeftAlt 10 0) { booted with cfg := { cfg with fixReversed := true } })
      (p := fun _ => true) (by decide +kernel)
    exact ⟨t, h⟩
  · obtain ⟨t, h, _⟩ := after_spec (o := exec (.prepare .turnRightAlt 10 0) { booted with cfg := { cfg with fixReversed := true } })
      (p := fun _ => true) (by decide +kernel)
    exact ⟨t, h⟩

/-- PauseTakesTheTimeOfALinearMove: a Pause armed on a block that is not booted, and a Pause on a booted one. -/
theorem witness_PauseTakesTheTimeOfALinearMove : (∃ t, exec (.prepare .pause (3 / 100) 100) unbooted = .next t) ∧
    Booted booted .a ∧ booted.actKind = .pause := by
  obtain ⟨t, h, _⟩ := after_spec (o := exec (.prepare .pause (3 / 100) 100) unbooted) (p := fun _ => true) (by decide +kernel)
  exact ⟨⟨t, h⟩, booted_booted, rfl⟩

/-- AdvanceWithoutStepWritesNothing: idle, and one microsecond before the step is due. -/
theorem witness_AdvanceWithoutStepWritesNothing : booted.steps = 0 ∧ moving.steps ≠ 0 ∧
    (((7999 : ClkWord).toNat : Int) - moving.lastStepUs.toNat) % 2 ^ 32 < moving.interval.toNat := by decide

/-- AdvanceTakesOneStep: at the first reading at which the step is due; a linear action, a turn, a Pause, and a block that is
not booted. -/
theorem witness_AdvanceTakesOneStep : moving.steps ≠ 0 ∧
    (moving.interval.toNat : Int) ≤ (((8000 : ClkWord).toNat : Int) - moving.lastStepUs.toNat) % 2 ^ 32 ∧ Booted moving .a ∧
    linearKind moving.actKind ∧ turnKind ({ moving with actKind := .turnLeft } : State).actKind ∧
    ({ moving with actKind := .pause } : State).actKind = .pause ∧
    (∀ v, ¬ Booted { moving with wiring := .unbound } v) :=
  ⟨by decide, by decide, ⟨rfl, rfl⟩, .inl rfl, .inl rfl, rfl, (fun _ h => nomatch h.1)⟩

theorem witness_AdvanceStepsOnlyWhenDue : ∃ t, exec (.advance 8 8000) moving = .next t ∧ t.steps ≠ moving.steps :=
  ⟨_, rfl, by decide⟩

/-- StepWaitsItsIntervalInRealTime: the clock wrapped once, both clauses at the reading at which the step becomes due (V-AD5). -/
theorem witness_StepWaitsItsIntervalInRealTime : ({ moving with lastStepUs := 4294967196 } : State).lastStepUs =
      BitVec.ofNat 32 4294967196 ∧ (4294967196 + moving.interval.toNat ≤ 4294968196) ∧ 4294968196 < 4294967196 + 2 ^ 32 ∧
    ∃ t, exec (.advance 0 (BitVec.ofNat 32 4294968196)) { moving with lastStepUs := 4294967196 } = .next t ∧
      t.steps ≠ moving.steps := ⟨rfl, by decide, by decide, _, rfl, by decide⟩

/-- IntervalRampOfAStep and IntervalIsMonotoneInEachPhase: V-AD4, the four steps where the clauses meet. -/
theorem witness_IntervalRampOfAStep_IntervalIsMonotoneInEachPhase :
    ([301, 300, 135, 134] : List StepWord).all (fun n =>
      after (exec (.advance 8 8000) { moving with steps := n }) (fun _ => true)) = true ∧
    (∀ n ∈ ([301, 300, 135, 134] : List StepWord), Due { moving with steps := n } 8000) ∧
    moving.accelUntil.toNat < (301 : StepWord).toNat ∧ (300 : StepWord).toNat ≤ moving.accelUntil.toNat ∧
    moving.decelBelow.toNat ≤ (135 : StepWord).toNat ∧ (134 : StepWord).toNat < moving.decelBelow.toNat ∧
    moving.cfg.accelDelta ≤ moving.interval.toNat ∧ moving.interval.toNat + moving.cfg.decelDelta < 2 ^ 32 ∧
    moving.decelBelow.toNat ≤ moving.accelUntil.toNat := by
  refine ⟨by decide +kernel, ?_, by decide, by decide, by decide, by decide, by decide +kernel, by decide +kernel, by decide⟩
  intro n hn
  refine ⟨?_, due_moving.2⟩
  simp only [List.mem_cons, List.not_mem_nil, or_false] at hn
  obtain rfl | rfl | rfl | rfl := hn <;> decide

/-- IndexMovesModuloFour, StepPatternsAreInTheTable: going forward from index 3 (V-AD6), and backward from index 0 (V-AD7). -/
theorem witness_IndexMovesModuloFour_StepPatternsAreInTheTable :
    (DirectionCoherent { moving with seqIdx := 3 } ∧ Due { moving with seqIdx := 3 } 8000 ∧
      ∃ t, exec (.advance 8 8000) { moving with seqIdx := 3 } = .next t) ∧
    (DirectionCoherent { moving with actKind := .backward, seqStart := 3, seqStep := .minus } ∧
      linearKind .backward ∧ ∃ t, exec (.advance 8 8000)
        { moving with actKind := .backward, seqStart := 3, seqStep := .minus } = .next t) :=
  ⟨⟨(fun _ _ => .inl ⟨rfl, rfl⟩), due_moving, ⟨_, rfl⟩⟩, ⟨(fun _ _ => .inr ⟨rfl, rfl⟩), .inr rfl, ⟨_, rfl⟩⟩⟩

/-- FinishedOnceOnTheLastStep: the last step. -/
theorem witness_FinishedOnceOnTheLastStep : ∃ t, exec (.advance 8 8000) { moving with steps := 1 } = .next t ∧
    t.result = some .finished := ⟨_, rfl, by decide⟩

theorem witness_StopMeaning : ∃ t, exec (.stop 100) moving = .next t := ⟨_, rfl⟩

/-- MillisecondReadingReachesOnlyActMs: an ADVANCE that steps, and one that does not. -/
theorem witness_MillisecondReadingReachesOnlyActMs : (∃ t, exec (.advance 8 8000) moving = .next t ∧ t.steps ≠ moving.steps) ∧
    ∃ t, exec (.advance 7 7999) moving = .next t ∧ t.steps = moving.steps := ⟨⟨_, rfl, by decide⟩, ⟨_, rfl, rfl⟩⟩

/-- OnlyAdvanceReturnsAStatus: another operation, and ADVANCE idle, before its time, and due. -/
theorem witness_OnlyAdvanceReturnsAStatus : (∃ t, exec (.stop 0) moving = .next t) ∧ (∀ ms us, Instr.stop 0 ≠ .advance ms us) ∧
    booted.steps = 0 ∧ moving.steps ≠ 0 ∧ ¬ Due moving 7999 ∧ Due moving 8000 :=
  ⟨⟨_, rfl⟩, (fun _ _ h => by cases h), rfl, by decide, not_due_moving, due_moving⟩

theorem witness_StepsChangesOnlyAsListed : ∃ t, exec (.stop 0) moving = .next t ∧ t.steps ≠ moving.steps := ⟨_, rfl, by decide⟩

theorem witness_RegistersWrittenOnlyAsListed : (∃ t, exec (.setCoils 1 2) booted = .next t) ∧
    mayWrite (.setCoils 1 2) .steps = false := ⟨⟨_, rfl⟩, by decide⟩

theorem witness_OperationsKeepConfigurationMarksAndStream : ∃ t, exec .disableCoils booted = .next t := ⟨_, rfl⟩

theorem witness_FaultsExactlyAsListed : Live (given unbooted 0x4) ∧
    (given unbooted 0x4).stream = .command ⟨0x4, 0, 0, 0⟩ :: [] ∧ decode ⟨0x4, 0, 0, 0⟩ = .ok .disableCoils ∧
    exec .disableCoils unbooted = .fault .notInitialised := ⟨⟨rfl, rfl, by decide +kernel⟩, rfl, rfl, rfl⟩

theorem witness_RefusalsExactlyAsListed : Live (given booted 0x1) ∧ (given booted 0x1).stream = .command ⟨0x1, 0, 0, 0⟩ :: [] ∧
    step (given booted 0x1) = .refused .wiringRebind := ⟨⟨rfl, rfl, by decide +kernel⟩, rfl, refuses_spec (by decide +kernel)⟩

theorem witness_BootSequenceBoots : configLegal cfg = true := by decide +kernel

/-- StepKeepsDirectionCoherent, StepKeepsPortSpace, StepKeepsCoilsShown, StepKeepsBootState: a moving block whose next
operation is `setcoils 0, 1`. -/
theorem witness_StepKeeps : DirectionCoherent (given moving 0x00010003) ∧
    portsWf (given moving 0x00010003).cfg (given moving 0x00010003).ports = true ∧
    (given moving 0x00010003).wiring = .bound .a ∧ CoilsShown (given moving 0x00010003) .a ∧
    ((given moving 0x00010003).outInit = true → (given moving 0x00010003).wiring ≠ .unbound) ∧
    ∃ t, step (given moving 0x00010003) = .next t := by
  obtain ⟨t, h, _⟩ := after_spec (o := step (given moving 0x00010003)) (p := fun _ => true) (by decide +kernel)
  refine ⟨(fun _ _ => .inl ⟨rfl, rfl⟩), by decide +kernel, rfl, ?_, (fun _ => by decide), t, h⟩
  unfold CoilsShown
  decide +kernel

/-- AdvanceKeepsActionOnItsRamp, StepKeepsRampForm: the action of `moving`, not yet stepped, on its ramp of 500 steps; the
configuration's base interval is 1000. -/
theorem witness_AdvanceKeepsActionOnItsRamp_StepKeepsRampForm : NoWrap moving.cfg ∧ moving.steps ≠ 0 ∧ OnRamp moving 500 ∧
    (∃ t, exec (.prepare .forward 5 7000) moving = .next t) ∧ (∃ t, exec (.advance 8 8000) moving = .next t) ∧
    ∃ t, step (given moving 0x00000007) = .next t := by
  obtain ⟨t, h, _⟩ := after_spec (o := step (given moving 0x00000007)) (p := fun _ => true) (by decide +kernel)
  obtain ⟨u, hu, _⟩ := after_spec (o := exec (.prepare .forward 5 7000) moving) (p := fun _ => true) (by decide +kernel)
  refine ⟨⟨⟨rfl, rfl, rfl, rfl, rfl, rfl, rfl, rfl⟩, by decide +kernel, by decide +kernel⟩, by decide, ?_, ⟨u, hu⟩, ⟨_, rfl⟩, t, h⟩
  unfold OnRamp
  decide +kernel

end Sys2Proof.Tests
end

section
/-! PROOFS. The block never acts on its own (00_scope.md R7). -/

namespace Sys2Proof.Machine

/-- An empty stream offers nothing to fetch. -/
theorem fetchEvent_of_stream_nil {s : State} (hs : s.stream = []) : fetchEvent s = .nothing := by
  rw [fetchEvent, hs]

/-- On a live block with nothing issued a step leaves the state as it is: the counterpart of `step_command`. -/
theorem step_nil {s : State} (hl : Live s) (hs : s.stream = []) : step s = .next s := by
  rw [step, fetch_live hl, fetchEvent_of_stream_nil hs]

/-- Settles O12: the block is live, so it reads its stream, which is empty. -/
theorem nothingIssuedNothingChanges : Obligations.NothingIssuedNothingChanges :=
  fun _ hl hs => step_nil hl hs

end Sys2Proof.Machine
end

section
/-! PROOFS. What each operation did when it answered a next state: one inversion lemma per meaning, beside `execAdvance_eq_next`
and `execPrepare_eq_next` of the laws. -/

namespace Sys2Proof.Machine

open Sys2Proof.Claims

theorem execSetWiring_eq_next {var : Variant} {s t : State} (h : execSetWiring var s = .next t) :
    s.wiring = .unbound ∧ t = putResult (putWiring s var) none := by
  unfold execSetWiring at h
  cases hw : s.wiring with
  | unbound => rw [hw] at h; cases h; exact ⟨rfl, rfl⟩
  | bound v => rw [hw] at h; cases h

theorem execInitOutputs_eq_next {s t : State} (h : execInitOutputs s = .next t) :
    (∃ v, s.wiring = .bound v) ∧ s.outInit = false ∧ t = putResult (putOutInit s) none := by
  unfold execInitOutputs at h
  cases hw : s.wiring with
  | unbound => rw [hw] at h; cases h
  | bound v =>
    rw [hw] at h
    cases ho : s.outInit with
    | true => rw [ho] at h; cases h
    | false => rw [ho] at h; cases h; exact ⟨⟨v, rfl⟩, rfl, rfl⟩

theorem execSetCoils_eq_next {r l : Pattern} {s t : State} (h : execSetCoils r l s = .next t) :
    ∃ v, Booted s v ∧ t = putResult (putCoils s r l (maskedWrite (wiringMap s.cfg v) (l ++ r) s.ports)) none := by
  obtain ⟨u, hu, e⟩ := andThen_eq_next.1 h
  obtain ⟨v, hv, rfl⟩ := setCoilsInternal_eq_next hu
  cases e
  exact ⟨v, hv, rfl⟩

theorem execDisableCoils_eq_next {s t : State} (h : execDisableCoils s = .next t) :
    ∃ v, Booted s v ∧ t = putResult (putCoils s 0 0 (maskedWrite (wiringMap s.cfg v) ((0 : Pattern) ++ (0 : Pattern)) s.ports)) none :=
  execSetCoils_eq_next h

theorem execStop_eq_next {ms : ClkWord} {s t : State} (h : execStop ms s = .next t) : t = putResult (putSteps s 0) none := by
  cases h
  rfl

/-- What arming writes, as one update: SEQ_START and SEQ_STEP are the two that a Pause leaves. -/
theorem arm_eq (k : Kind) (n : Nat) (us : ClkWord) (s : State) :
    arm k n us s = { s with
      actKind := k
      steps := BitVec.ofNat 32 n
      accelUntil := BitVec.ofNat 32 (accelThreshold s.cfg n)
      decelBelow := BitVec.ofNat 32 (decelThreshold s.cfg n)
      lastStepUs := us
      seqStart := (armDirection k s).seqStart
      seqStep := (armDirection k s).seqStep
      interval := BitVec.ofNat 32 (baseInterval s.cfg) } := by
  cases k <;> rfl

/-- A due ADVANCE of a linear or turn action: the left motor's pattern is the entry at SEQ_IDX, the right motor's that entry or
the mirrored one, and the index moves (41_action_engine.md R110 to R112). -/
theorem execAdvance_drives {ms us : ClkWord} {s t : State} (hd : Due s us)
    (hk : kindClass s.actKind = .linear ∨ kindClass s.actKind = .turn) (h : execAdvance ms us s = .next t) :
    t.coilL = seqAt s.cfg s.seqIdx ∧ (t.coilR = seqAt s.cfg (3 - s.seqIdx) ∨ t.coilR = seqAt s.cfg s.seqIdx) ∧
      t.seqIdx = nextIndex s.seqIdx s.seqStart s.seqStep := by
  obtain ⟨h0, -⟩ | ⟨-, hnd, -⟩ | ⟨-, right, left, ports, idx, rfl, hstep⟩ := execAdvance_eq_next h
  · exact absurd h0 hd.1
  · exact absurd hd hnd
  · obtain ⟨v, -, -, hr, hl, -, hi⟩ | ⟨v, -, -, hr, hl, -, hi⟩ | ⟨hk', -⟩ := hstep
    · exact ⟨hl, .inl hr, hi⟩
    · exact ⟨hl, .inr hr, hi⟩
    · obtain hk | hk := hk <;> rw [hk] at hk' <;> simp at hk'

/-! ### The statements' operand functions are the model's -/

theorem kindClass_linear_iff (k : Kind) : kindClass k = .linear ↔ linearKind k := by
  cases k <;> simp [kindClass, linearKind]

theorem kindClass_turn_iff (k : Kind) : kindClass k = .turn ↔ turnKind k := by
  cases k <;> simp [kindClass, turnKind]

theorem effectiveKind_eq (c : Config) (k : Kind) : effectiveKind c k = kindUnder c.fixReversed k := by
  unfold effectiveKind
  cases c.fixReversed <;> cases k <;> rfl

theorem stepCount_eq (c : Config) (k : Kind) (value : Rat) : stepCount c k value = countOf c k value := by
  cases k <;> simp only [stepCount, kindClass, countOf, absRat_eq, truncNat_eq]

end Sys2Proof.Machine
end

section
/-! PROOFS. The direction invariant of 10_state.md R43: it holds after reset, and every step keeps it. -/

namespace Sys2Proof.Machine

/-- The invariant speaks of four registers: where an update leaves ACT_KIND, SEQ_START and SEQ_STEP and starts no action, it
stays. -/
theorem DirectionCoherent.of_frame {s t : State} (h : DirectionCoherent s) (hsteps : t.steps ≠ 0 → s.steps ≠ 0)
    (hkind : t.actKind = s.actKind) (hstart : t.seqStart = s.seqStart) (hstep : t.seqStep = s.seqStep) :
    DirectionCoherent t := by
  intro hn hk
  rw [hkind] at hk
  rw [hstart, hstep]
  exact h (hsteps hn) hk

/-- Arming a linear or turn action sets the direction (41_action_engine.md R100), whatever the state was. -/
theorem directionCoherent_arm (k : Kind) (n : Nat) (us : ClkWord) (s : State) : DirectionCoherent (arm k n us s) := by
  rintro - hk
  rw [arm_eq] at hk ⊢
  cases k with
  | forward => exact .inl ⟨rfl, rfl⟩
  | backward => exact .inr ⟨rfl, rfl⟩
  | turnLeft => exact .inr ⟨rfl, rfl⟩
  | turnRight => exact .inl ⟨rfl, rfl⟩
  | turnLeftAlt => exact .inr ⟨rfl, rfl⟩
  | turnRightAlt => exact .inl ⟨rfl, rfl⟩
  | pause => simp [kindClass] at hk
  | invalid => simp [kindClass] at hk

/-- An ADVANCE writes neither ACT_KIND nor the direction, and starts no action. -/
theorem execAdvance_keeps_action {ms us : ClkWord} {s t : State} (h : execAdvance ms us s = .next t) :
    (t.steps ≠ 0 → s.steps ≠ 0) ∧ t.actKind = s.actKind ∧ t.seqStart = s.seqStart ∧ t.seqStep = s.seqStep := by
  obtain ⟨-, rfl⟩ | ⟨-, -, rfl⟩ | ⟨hd, right, left, ports, idx, rfl, -⟩ := execAdvance_eq_next h
  · exact ⟨id, rfl, rfl, rfl⟩
  · exact ⟨id, rfl, rfl, rfl⟩
  · exact ⟨fun _ => hd.1, rfl, rfl, rfl⟩

theorem exec_keeps_directionCoherent {i : Instr} {s t : State} (hs : DirectionCoherent s) (h : exec i s = .next t) :
    DirectionCoherent t := by
  cases i with
  | setWiring var =>
    obtain ⟨-, rfl⟩ := execSetWiring_eq_next h
    exact hs.of_frame id rfl rfl rfl
  | initOutputs =>
    obtain ⟨-, -, rfl⟩ := execInitOutputs_eq_next h
    exact hs.of_frame id rfl rfl rfl
  | setCoils r l =>
    obtain ⟨v, -, rfl⟩ := execSetCoils_eq_next h
    exact hs.of_frame id rfl rfl rfl
  | disableCoils =>
    obtain ⟨v, -, rfl⟩ := execDisableCoils_eq_next h
    exact hs.of_frame id rfl rfl rfl
  | prepare k value us =>
    obtain ⟨-, rfl⟩ := execPrepare_eq_next h
    exact (directionCoherent_arm _ _ us s).of_frame id rfl rfl rfl
  | advance ms us =>
    obtain ⟨hsteps, hkind, hstart, hstep⟩ := execAdvance_keeps_action h
    exact hs.of_frame hsteps hkind hstart hstep
  | stop ms =>
    obtain rfl := execStop_eq_next (ms := ms) h
    exact hs.of_frame (fun h0 => absurd rfl h0) rfl rfl rfl

/-- Settles O47: an event received and another owner's port write touch no engine register; the rest is the operation's. -/
theorem stepKeepsDirectionCoherent : Obligations.StepKeepsDirectionCoherent := by
  intro s t hs h
  obtain ⟨-, ⟨-, rfl⟩ | ⟨p, v, rest, -, rfl⟩ | ⟨c, rest, i, -, -, hi⟩⟩ := step_next_cases h
  · exact hs
  · exact hs.of_frame id rfl rfl rfl
  · exact exec_keeps_directionCoherent (hs.of_frame id rfl rfl rfl : DirectionCoherent (dropEvent s)) hi

/-- Settles O48: no action is in flight after reset. -/
theorem resetIsDirectionCoherent : Obligations.ResetIsDirectionCoherent :=
  fun _ hsteps => absurd rfl hsteps

end Sys2Proof.Machine
end

section
/-! PROOFS. What a step of a linear or turn action does to the index and the coils (10_state.md R43, R44). -/

namespace Sys2Proof.Machine

open Sys2Proof.Claims

/-- Under the direction of R43 the wrap to SEQ_START is the wrap modulo 4 (10_state.md R44). -/
theorem nextIndex_toNat {start : SeqIndex} {d : SeqStep}
    (h : (start = 0 ∧ d = .plus) ∨ (start = 3 ∧ d = .minus)) (idx : SeqIndex) :
    ((nextIndex idx start d).toNat : Int) = ((idx.toNat : Int) + seqStepInt d) % 4 := by
  obtain ⟨rfl, rfl⟩ | ⟨rfl, rfl⟩ := h <;> revert idx <;> decide

theorem kindClass_of_linearKind_or_turnKind {k : Kind} (h : linearKind k ∨ turnKind k) :
    kindClass k = .linear ∨ kindClass k = .turn :=
  h.imp (kindClass_linear_iff k).2 (kindClass_turn_iff k).2

/-- Settles O34: the step is due, so an action is in flight and R43 gives its direction. -/
theorem indexMovesModuloFour : Obligations.IndexMovesModuloFour := by
  intro s t ms us hs hd hk h
  have hk := kindClass_of_linearKind_or_turnKind hk
  obtain ⟨-, -, hidx⟩ := execAdvance_drives hd hk h
  rw [hidx, nextIndex_toNat (hs hd.1 hk)]
  cases s.seqStep <;> rfl

theorem seqAt_mem (c : Config) (i : SeqIndex) : seqAt c i ∈ c.seq := Vector.getElem_mem _

/-- Settles O35: both patterns that a driving step writes are read from the table. -/
theorem stepPatternsAreInTheTable : Obligations.StepPatternsAreInTheTable := by
  intro s t ms us hd hk h
  obtain ⟨hl, hr, -⟩ := execAdvance_drives hd (kindClass_of_linearKind_or_turnKind hk) h
  refine ⟨?_, hl ▸ seqAt_mem s.cfg _⟩
  obtain hr | hr := hr <;> exact hr ▸ seqAt_mem s.cfg _

end Sys2Proof.Machine
end

section
/-! PROOFS. What the operations write of the state table (10_state.md R21, R22, R35, R37, R41), read off the inversion lemmas. -/

namespace Sys2Proof.Machine

open Sys2Proof.Claims

/-! ### Each update leaves the registers it does not name -/

@[simp] theorem readReg_putResult (s : State) (q : Option Status) (r : Reg) : readReg (putResult s q) r = readReg s r := by
  cases r <;> rfl

theorem readReg_putWiring (s : State) (v : Variant) {r : Reg} (h : r ∉ [Reg.wiring]) :
    readReg (putWiring s v) r = readReg s r := by
  cases r <;> simp at h <;> rfl

theorem readReg_putOutInit (s : State) {r : Reg} (h : r ∉ [Reg.outInit]) : readReg (putOutInit s) r = readReg s r := by
  cases r <;> simp at h <;> rfl

theorem readReg_putCoils (s : State) (right left : Pattern) (ps : Ports) {r : Reg} (h : r ∉ [Reg.coilR, .coilL]) :
    readReg (putCoils s right left ps) r = readReg s r := by
  cases r <;> simp at h <;> rfl

theorem readReg_putSteps (s : State) (n : StepWord) {r : Reg} (h : r ∉ [Reg.steps]) :
    readReg (putSteps s n) r = readReg s r := by
  cases r <;> simp at h <;> rfl

theorem readReg_arm (k : Kind) (n : Nat) (us : ClkWord) (s : State) {r : Reg}
    (h : r ∉ [Reg.steps, .interval, .accelUntil, .decelBelow, .seqStart, .seqStep, .lastStepUs, .actKind]) :
    readReg (arm k n us s) r = readReg s r := by
  rw [arm_eq]
  cases r <;> simp at h <;> rfl

theorem readReg_execAdvance {ms us : ClkWord} {s t : State} (ht : execAdvance ms us s = .next t) {r : Reg}
    (h : r ∉ [Reg.steps, .interval, .seqIdx, .lastStepUs, .coilR, .coilL, .actMs]) : readReg t r = readReg s r := by
  obtain ⟨-, rfl⟩ | ⟨-, -, rfl⟩ | ⟨-, right, left, ports, idx, rfl, -⟩ := execAdvance_eq_next ht
  · exact readReg_putResult s _ r
  · exact readReg_putResult s _ r
  · cases r <;> simp at h <;> rfl

/-- Settles O41: each operation is a composition of updates of the registers its row lists. -/
theorem registersWrittenOnlyAsListed : Obligations.RegistersWrittenOnlyAsListed := by
  intro i s t r h hr
  have hr : r ∉ writtenBy i := of_decide_eq_false hr
  cases i with
  | setWiring var =>
    obtain ⟨-, rfl⟩ := execSetWiring_eq_next h
    rw [readReg_putResult, readReg_putWiring s var hr]
  | initOutputs =>
    obtain ⟨-, -, rfl⟩ := execInitOutputs_eq_next h
    rw [readReg_putResult, readReg_putOutInit s hr]
  | setCoils right left =>
    obtain ⟨v, -, rfl⟩ := execSetCoils_eq_next h
    rw [readReg_putResult, readReg_putCoils s _ _ _ hr]
  | disableCoils =>
    obtain ⟨v, -, rfl⟩ := execDisableCoils_eq_next h
    rw [readReg_putResult, readReg_putCoils s _ _ _ hr]
  | prepare k value us =>
    obtain ⟨-, rfl⟩ := execPrepare_eq_next h
    rw [readReg_putResult, readReg_arm _ _ us s hr]
  | advance ms us => exact readReg_execAdvance h hr
  | stop ms =>
    obtain rfl := execStop_eq_next (ms := ms) h
    rw [readReg_putResult, readReg_putSteps s 0 hr]

/-! ### The configuration, the marks and the stream -/

/-- Settles O42: no meaning has an update of any of the four. -/
theorem operationsKeepConfigurationMarksAndStream : Obligations.OperationsKeepConfigurationMarksAndStream := by
  intro i s t h
  cases i with
  | setWiring var =>
    obtain ⟨-, rfl⟩ := execSetWiring_eq_next h
    exact ⟨rfl, rfl, rfl, rfl⟩
  | initOutputs =>
    obtain ⟨-, -, rfl⟩ := execInitOutputs_eq_next h
    exact ⟨rfl, rfl, rfl, rfl⟩
  | setCoils right left =>
    obtain ⟨v, -, rfl⟩ := execSetCoils_eq_next h
    exact ⟨rfl, rfl, rfl, rfl⟩
  | disableCoils =>
    obtain ⟨v, -, rfl⟩ := execDisableCoils_eq_next h
    exact ⟨rfl, rfl, rfl, rfl⟩
  | prepare k value us =>
    obtain ⟨-, rfl⟩ := execPrepare_eq_next h
    rw [arm_eq]
    exact ⟨rfl, rfl, rfl, rfl⟩
  | advance ms us =>
    obtain ⟨-, rfl⟩ | ⟨-, -, rfl⟩ | ⟨-, right, left, ports, idx, rfl, -⟩ := execAdvance_eq_next h
    all_goals exact ⟨rfl, rfl, rfl, rfl⟩
  | stop ms =>
    obtain rfl := execStop_eq_next (ms := ms) h
    exact ⟨rfl, rfl, rfl, rfl⟩

/-! ### STEPS -/

/-- PREPARE sets STEPS to the whole count: one that would not fit has faulted (41_action_engine.md R98). -/
theorem execPrepare_steps {k : Kind} {value : Rat} {us : ClkWord} {s t : State} (h : execPrepare k value us s = .next t) :
    t.steps.toNat = countOf s.cfg (kindUnder s.cfg.fixReversed k) value := by
  obtain ⟨hn, rfl⟩ := execPrepare_eq_next h
  rw [putResult_steps, arm_eq, BitVec.toNat_ofNat, Nat.mod_eq_of_lt hn, stepCount_eq, effectiveKind_eq]

/-- An ADVANCE leaves STEPS or counts it down (41_action_engine.md R113). -/
theorem execAdvance_steps {ms us : ClkWord} {s t : State} (h : execAdvance ms us s = .next t) :
    t.steps = s.steps ∨ t.steps.toNat + 1 = s.steps.toNat := by
  obtain ⟨-, rfl⟩ | ⟨-, -, rfl⟩ | ⟨⟨h0, -⟩, right, left, ports, idx, rfl, -⟩ := execAdvance_eq_next h
  · exact .inl rfl
  · exact .inl rfl
  · right
    bv_omega

/-- Settles O40: PREPARE, ADVANCE and STOP by their own lemmas; STEPS is in no other operation's row of R21. -/
theorem stepsChangesOnlyAsListed : Obligations.StepsChangesOnlyAsListed := by
  intro i s t h
  have kept : mayWrite i .steps = false → t.steps = s.steps := fun hw =>
    BitVec.eq_of_toNat_eq (RegValue.word.inj (registersWrittenOnlyAsListed i s t .steps h hw))
  cases i with
  | setWiring var => exact .inl (kept rfl)
  | initOutputs => exact .inl (kept rfl)
  | setCoils right left => exact .inl (kept rfl)
  | disableCoils => exact .inl (kept rfl)
  | prepare k value us => exact .inr (.inl ⟨k, value, us, rfl, execPrepare_steps h⟩)
  | advance ms us => exact (execAdvance_steps h).imp id fun hs => .inr (.inl ⟨ms, us, rfl, hs⟩)
  | stop ms =>
    obtain rfl := execStop_eq_next (ms := ms) h
    exact .inr (.inr (.inr ⟨ms, rfl, rfl⟩))

/-! ### The status -/

theorem result_eq_none_of_not_advance {i : Instr} {s t : State} (h : exec i s = .next t) (hi : ∀ ms us, i ≠ .advance ms us) :
    t.result = none := by
  cases i with
  | setWiring var => obtain ⟨-, rfl⟩ := execSetWiring_eq_next h; rfl
  | initOutputs => obtain ⟨-, -, rfl⟩ := execInitOutputs_eq_next h; rfl
  | setCoils right left => obtain ⟨v, -, rfl⟩ := execSetCoils_eq_next h; rfl
  | disableCoils => obtain ⟨v, -, rfl⟩ := execDisableCoils_eq_next h; rfl
  | prepare k value us => obtain ⟨-, rfl⟩ := execPrepare_eq_next h; rfl
  | advance ms us => exact absurd rfl (hi ms us)
  | stop ms => obtain rfl := execStop_eq_next (ms := ms) h; rfl

/-- The status of ADVANCE by the three ways of R105; each excludes the other two. -/
theorem execAdvance_result {ms us : ClkWord} {s t : State} (h : execAdvance ms us s = .next t) :
    (s.steps = 0 → t.result = some .idle) ∧
    (s.steps ≠ 0 → ¬ Due s us → t.result = some .pending) ∧
    (Due s us → t.result = some (if s.steps = 1 then .finished else .pending)) := by
  obtain ⟨h0, rfl⟩ | ⟨h0, hnd, rfl⟩ | ⟨hd, right, left, ports, idx, rfl, -⟩ := execAdvance_eq_next h
  · exact ⟨fun _ => rfl, fun hn => absurd h0 hn, fun hd => absurd h0 hd.1⟩
  · exact ⟨fun hz => absurd hz h0, fun _ _ => rfl, fun hd => absurd hd hnd⟩
  · exact ⟨fun hz => absurd hz hd.1, fun _ hnd => absurd hd hnd, fun _ => rfl⟩

/-- Settles O39: the other operations clear the result, and ADVANCE's status is its own lemma. -/
theorem onlyAdvanceReturnsAStatus : Obligations.OnlyAdvanceReturnsAStatus := by
  intro i s t h
  refine ⟨result_eq_none_of_not_advance h, ?_⟩
  rintro ms us rfl
  exact execAdvance_result h

end Sys2Proof.Machine
end

section
/-! PROOFS. A port write of another owner (10_state.md R40; 20_memory.md R49; 40_coil_driver.md R79). -/

namespace Sys2Proof.Machine

open Sys2Proof.Claims

/-- On a live block another owner's write next in the stream takes effect: the counterpart of `step_command`. -/
theorem step_otherOwnerWrite {s : State} {p v : Nat} {rest : List HostEvent} (hl : Live s)
    (hs : s.stream = .otherOwnerWrite p v :: rest) : step s = .next (otherOwnerWrite p v (dropEvent s)) := by
  rw [step, fetch_live hl, fetchEvent, hs]

theorem physicalBit_eq_iff (x : PortBit) (p b : Nat) : x = ⟨p, b⟩ ↔ x.port = p ∧ x.bit = b := by
  cases x
  rw [PortBit.mk.injEq]

/-- The mask of a port holds exactly its coil bits: none while no variant is bound. -/
theorem testBit_coilMask (s : State) (p b : Nat) : (coilMask s p).testBit b = true ↔ isCoilBit s p b := by
  unfold coilMask isCoilBit
  cases s.wiring with
  | unbound => simp
  | bound v => simp [testBit_lineMask, physicalBit_eq_iff]

theorem portBit_otherOwnerWrite_other (s : State) {p q : Nat} (v b : Nat) (h : q ≠ p) :
    portBit (otherOwnerWrite p v s) q b = portBit s q b := by
  rw [portBit, otherOwnerWrite, putPorts_ports, portRead_portWrite_other _ _ _ _ h, portBit]

/-- The written port, bit by bit: a coil bit keeps its level, any other takes the owner's, cut to the port's width. -/
theorem portBit_otherOwnerWrite_same (s : State) {p : Nat} (v b : Nat) (hp : p ∈ s.ports.map Prod.fst) :
    portBit (otherOwnerWrite p v s) p b =
      bif (coilMask s p).testBit b then portBit s p b else decide (b < s.cfg.wPort) && v.testBit b := by
  rw [portBit, otherOwnerWrite, putPorts_ports, portRead_portWrite_same _ _ _ hp, Nat.testBit_or, testBit_andNot,
    Nat.testBit_and, Nat.testBit_mod_two_pow, portBit]
  cases (coilMask s p).testBit b <;> simp

/-- A coil bit keeps its level under another owner's write, also of a name that is no port. -/
theorem portBit_otherOwnerWrite_coilBit (s : State) {p b : Nat} (v : Nat) (hb : isCoilBit s p b) :
    portBit (otherOwnerWrite p v s) p b = portBit s p b := by
  by_cases hp : p ∈ s.ports.map Prod.fst
  · rw [portBit_otherOwnerWrite_same s v b hp, (testBit_coilMask s p b).2 hb, cond_true]
  · have hp' : p ∉ (otherOwnerWrite p v s).ports.map Prod.fst := by
      rwa [otherOwnerWrite, putPorts_ports, map_fst_portWrite]
    rw [portBit, portBit, portRead_absent _ _ hp, portRead_absent _ _ hp']

theorem portBit_otherOwnerWrite_freeBit (s : State) {p b : Nat} (v : Nat) (hb : ¬ isCoilBit s p b)
    (hp : p ∈ s.ports.map Prod.fst) :
    portBit (otherOwnerWrite p v s) p b = (decide (b < s.cfg.wPort) && v.testBit b) := by
  have hm : (coilMask s p).testBit b = false := Bool.eq_false_iff.2 (mt (testBit_coilMask s p b).1 hb)
  rw [portBit_otherOwnerWrite_same s v b hp, hm, cond_false]

/-- Settles O13: receiving the event changes the stream alone, so its bits are those of `otherOwnerWrite`. -/
theorem otherOwnersKeepCoilBits : Obligations.OtherOwnersKeepCoilBits := by
  intro s p v rest hl hs
  refine ⟨_, step_otherOwnerWrite hl hs, ?_, ?_, ?_, ?_⟩
  · rw [otherOwnerWrite, dropEvent, hs]
    rfl
  · exact fun q b hq => portBit_otherOwnerWrite_other (dropEvent s) v b hq
  · exact fun b hb => portBit_otherOwnerWrite_coilBit (dropEvent s) v hb
  · exact fun b hb hp => portBit_otherOwnerWrite_freeBit (dropEvent s) v hb hp

end Sys2Proof.Machine
end

section
/-! PROOFS. The legal configurations (10_state.md R35; 00_scope.md R9) and the values of reset (10_state.md R42). -/

namespace Sys2Proof.Machine

/-- A wiring map as the list of its lines' bits, line 0 first. -/
theorem toList_eq_ofFn_lineBit (m : WiringMap) : m.toList = List.ofFn (lineBit m) := by
  refine List.ext_getElem (by rw [Vector.length_toList, List.length_ofFn]) fun i _ _ => ?_
  rw [Vector.getElem_toList, List.getElem_ofFn]
  rfl

theorem mapInjective_iff (m : WiringMap) : mapInjective m = true ↔ Function.Injective (lineBit m) := by
  rw [mapInjective, decide_eq_true_iff, toList_eq_ofFn_lineBit, List.nodup_ofFn]

theorem mapInside_iff (c : Config) (m : WiringMap) :
    mapInside c m = true ↔ ∀ i, (lineBit m i).port ∈ c.portNames ∧ (lineBit m i).bit < c.wPort := by
  simp only [mapInside, toList_eq_ofFn_lineBit, List.all_eq_true, List.forall_mem_ofFn_iff, Bool.and_eq_true,
    decide_eq_true_iff]

theorem baseIntervalLegal_iff (c : Config) : baseIntervalLegal c = true ↔ ⌊(c.usPerS : Rat) / c.sps⌋₊ < 2 ^ 32 := by
  rw [baseIntervalLegal, decide_eq_true_iff, baseInterval, truncNat_eq]

/-- Settles O9: one clause for each check of the configuration. -/
theorem configurationLegalValues : Obligations.ConfigurationLegalValues := by
  intro c
  simp only [configLegal, Bool.and_eq_true, mapInjective_iff, mapInside_iff, baseIntervalLegal_iff, ratesLegal, speedLegal,
    portsLegal, fractionsLegal, deltasLegal, decide_eq_true_iff, and_assoc]

theorem configLegal_reference : configLegal Config.reference = true := by decide +kernel

/-- Settles O45: the fields are those of `State.resetWith`, and the reference configuration is legal. -/
theorem resetValues : Obligations.ResetValues :=
  ⟨fun _ => ⟨rfl, rfl, rfl, rfl, rfl, rfl, rfl⟩, rfl, rfl, rfl, configLegal_reference⟩

end Sys2Proof.Machine
end

section
/-! PROOFS. A step that receives an operation is that operation (20_memory.md R56). -/

namespace Sys2Proof.Machine

/-- Receiving the oldest event leaves the rest of the stream (log 1). -/
theorem dropEvent_of_stream_cons {s : State} {e : HostEvent} {rest : List HostEvent} (hs : s.stream = e :: rest) :
    dropEvent s = { s with stream := rest } := by
  rw [dropEvent, hs, List.tail_cons]

/-- Settles O7: a live block decodes the word, which is no refusal here, and executes it on the state after the event. -/
theorem stepRunsDecodedOperation : Obligations.StepRunsDecodedOperation := by
  intro s c rest i hl hs hd
  rw [step_command hl hs, hd, dropEvent_of_stream_cons hs]

end Sys2Proof.Machine
end

section
/-! PROOFS. What an operation can do to the coils and the ports: nothing, or the masked write of 20_memory.md R49 through the
bound map (40_coil_driver.md R79). -/

namespace Sys2Proof.Machine

open Sys2Proof.Claims

/-- Neither COIL_OUT nor a port is written on the way from `s` to `t`. -/
def CoilsUntouched (s t : State) : Prop := coilOut t = coilOut s ∧ t.ports = s.ports

/-- On the way from `s` to `t` a booted block writes the new COIL_OUT to the ports through its map (20_memory.md R49). -/
def CoilsWritten (s t : State) : Prop :=
  ∃ v, Booted s v ∧ t.ports = maskedWrite (wiringMap s.cfg v) (coilOut t) s.ports

/-! ### Which operations do which -/

theorem execSetCoils_coilsWritten {r l : Pattern} {s t : State} (h : execSetCoils r l s = .next t) : CoilsWritten s t := by
  obtain ⟨v, hv, rfl⟩ := execSetCoils_eq_next h
  exact ⟨v, hv, rfl⟩

theorem execDisableCoils_coilsWritten {s t : State} (h : execDisableCoils s = .next t) : CoilsWritten s t :=
  execSetCoils_coilsWritten h

/-- An ADVANCE writes the coils exactly where it takes a step of a linear or turn action (41_action_engine.md R110, R111). -/
theorem execAdvance_coils {ms us : ClkWord} {s t : State} (h : execAdvance ms us s = .next t) :
    ((Due s us ∧ (kindClass s.actKind = .linear ∨ kindClass s.actKind = .turn)) ∧ CoilsWritten s t) ∨
    (¬ (Due s us ∧ (kindClass s.actKind = .linear ∨ kindClass s.actKind = .turn)) ∧ CoilsUntouched s t) := by
  obtain ⟨h0, rfl⟩ | ⟨-, hnd, rfl⟩ | ⟨hd, right, left, ports, idx, rfl, hdrive⟩ := execAdvance_eq_next h
  · exact .inr ⟨fun hs => hs.1.1 h0, rfl, rfl⟩
  · exact .inr ⟨fun hs => hnd hs.1, rfl, rfl⟩
  · obtain ⟨v, hv, hk, -, -, hports, -⟩ | ⟨v, hv, hk, -, -, hports, -⟩ | ⟨hk, hr, hl, hports, -⟩ := hdrive
    · exact .inl ⟨⟨hd, .inl hk⟩, v, hv, hports⟩
    · exact .inl ⟨⟨hd, .inr hk⟩, v, hv, hports⟩
    · refine .inr ⟨?_, by rw [coilOut, coilOut, hr, hl], hports⟩
      rintro ⟨-, hk'⟩
      obtain hk | hk := hk <;> simp [hk] at hk'

/-- The operations that are neither a coil write nor an ADVANCE (40_coil_driver.md R79). -/
theorem exec_coilsUntouched {i : Instr} {s t : State} (h : exec i s = .next t) (hd : i ≠ .disableCoils)
    (hc : ∀ r l, i ≠ .setCoils r l) (ha : ∀ ms us, i ≠ .advance ms us) : CoilsUntouched s t := by
  cases i with
  | setWiring var =>
    obtain ⟨-, rfl⟩ := execSetWiring_eq_next h
    exact ⟨rfl, rfl⟩
  | initOutputs =>
    obtain ⟨-, -, rfl⟩ := execInitOutputs_eq_next h
    exact ⟨rfl, rfl⟩
  | setCoils r l => exact absurd rfl (hc r l)
  | disableCoils => exact absurd rfl hd
  | prepare k value us =>
    obtain ⟨-, rfl⟩ := execPrepare_eq_next h
    rw [arm_eq]
    exact ⟨rfl, rfl⟩
  | advance ms us => exact absurd rfl (ha ms us)
  | stop ms =>
    obtain rfl := execStop_eq_next (ms := ms) h
    exact ⟨rfl, rfl⟩

/-- Everything an operation can do to the coils and the ports. The port invariants are derived from this. -/
theorem exec_coils_cases {i : Instr} {s t : State} (h : exec i s = .next t) : CoilsUntouched s t ∨ CoilsWritten s t := by
  cases i with
  | setCoils r l => exact .inr (execSetCoils_coilsWritten h)
  | disableCoils => exact .inr (execDisableCoils_coilsWritten h)
  | advance ms us => exact (execAdvance_coils h).symm.imp And.right And.right
  | _ => exact .inl (exec_coilsUntouched h nofun nofun nofun)

/-! ### The bits that the map does not name -/

theorem CoilsWritten.portBit_eq {s t : State} (h : CoilsWritten s t) {p b : Nat} (hb : ¬ isCoilBit s p b) :
    portBit t p b = portBit s p b := by
  obtain ⟨v, ⟨hw, -⟩, hports⟩ := h
  rw [portBit, hports]
  exact maskedWrite_unnamed _ _ _ _ _ fun i hi => hb ⟨v, hw, i, hi⟩

/-- Settles O19: a masked write keeps the unnamed bits, and only the three operations make one. -/
theorem onlyMappedPortBitsChange : Obligations.OnlyMappedPortBitsChange := by
  intro i s t h
  refine ⟨fun p b hb => ?_, fun hd hc ha => (exec_coilsUntouched h hd hc ha).2⟩
  obtain ⟨-, hports⟩ | hw := exec_coils_cases h
  · rw [portBit, hports, portBit]
  · exact hw.portBit_eq hb

/-! ### A coil write repeated -/

/-- SET_COILS on a booted block (40_coil_driver.md R88): the converse of `execSetCoils_eq_next`. -/
theorem execSetCoils_booted {s : State} {v : Variant} (hv : Booted s v) (r l : Pattern) :
    execSetCoils r l s =
      .next (putResult (putCoils s r l (maskedWrite (wiringMap s.cfg v) (l ++ r) s.ports)) none) := by
  rw [execSetCoils, setCoilsInternal_booted hv, andThen_next]

/-- Settles O20: the block is still booted with the same map, and the masked write of the same coils changes nothing more. -/
theorem coilWriteIsIdempotent : Obligations.CoilWriteIsIdempotent := by
  intro s t r l h
  obtain ⟨v, hv, rfl⟩ := execSetCoils_eq_next h
  have hv' : Booted (putResult (putCoils s r l (maskedWrite (wiringMap s.cfg v) (l ++ r) s.ports)) none) v := hv
  rw [exec, execSetCoils_booted hv', putResult_ports, putCoils_ports, putResult_cfg, putCoils_cfg, maskedWrite_twice]
  rfl

end Sys2Proof.Machine
end

section
/-! PROOFS. The port invariants: the port space stays well formed (20_memory.md R47), and the ports, once they show COIL_OUT,
go on showing it (20_memory.md R48). -/

namespace Sys2Proof.Machine

open Sys2Proof.Claims

/-! ### The port space -/

theorem CoilsWritten.keeps_portsWf {s t : State} (h : CoilsWritten s t) (hc : configLegal s.cfg = true)
    (hp : portsWf s.cfg s.ports = true) : portsWf s.cfg t.ports = true := by
  obtain ⟨v, -, hports⟩ := h
  rw [hports]
  exact portsWf_maskedWrite _ _ _ _ (map_legal hc v).2 hp

theorem exec_keeps_portsWf {i : Instr} {s t : State} (hc : configLegal s.cfg = true) (hp : portsWf s.cfg s.ports = true)
    (h : exec i s = .next t) : portsWf t.cfg t.ports = true := by
  rw [(operationsKeepConfigurationMarksAndStream i s t h).1]
  obtain ⟨-, hports⟩ | hw := exec_coils_cases h
  · rwa [hports]
  · exact hw.keeps_portsWf hc hp

/-- The value another owner writes is cut to the port's width, and the coil bits it keeps were within it. -/
theorem otherOwnerWrite_keeps_portsWf (p v : Nat) {s : State} (hp : portsWf s.cfg s.ports = true) :
    portsWf (otherOwnerWrite p v s).cfg (otherOwnerWrite p v s).ports = true := by
  refine portsWf_portWrite s.cfg s.ports p _ (Nat.or_lt_two_pow (andNot_lt _ _ _ ?_) ?_) hp
  · exact Nat.mod_lt v (Nat.two_pow_pos _)
  · exact Nat.and_le_left.trans_lt (portRead_lt s.cfg s.ports p hp)

/-- Settles O49: a step runs only in a legal configuration, whose maps stay inside the port space. -/
theorem stepKeepsPortSpace : Obligations.StepKeepsPortSpace := by
  intro s t hp h
  obtain ⟨⟨-, -, hc⟩, ⟨-, rfl⟩ | ⟨p, v, rest, -, rfl⟩ | ⟨c, rest, i, -, -, hi⟩⟩ := step_next_cases h
  · exact hp
  · exact otherOwnerWrite_keeps_portsWf p v (s := dropEvent s) hp
  · exact exec_keeps_portsWf (s := dropEvent s) hc hp hi

/-! ### The coils shown on the ports -/

theorem CoilsShown.of_frame {s t : State} {v : Variant} (h : CoilsShown s v) (hcfg : t.cfg = s.cfg)
    (hu : CoilsUntouched s t) : CoilsShown t v := by
  intro i
  rw [hcfg, hu.1, hu.2]
  exact h i

theorem CoilsWritten.coilsShown {s t : State} {v : Variant} (h : CoilsWritten s t) (hc : configLegal s.cfg = true)
    (hp : portsWf s.cfg s.ports = true) (hw : s.wiring = .bound v) (hcfg : t.cfg = s.cfg) : CoilsShown t v := by
  obtain ⟨u, ⟨hu, -⟩, hports⟩ := h
  obtain rfl : v = u := Wiring.bound.inj (hw.symm.trans hu)
  intro i
  rw [hcfg, hports]
  exact maskedWrite_line hc hp v (coilOut t) i

/-- Settles O18: each of the three operations is a coil write under its condition, and a legal map is injective. -/
theorem coilWriteShowsCoilOut : Obligations.CoilWriteShowsCoilOut := by
  intro s t v i hc hp hw h hi
  have hwritten : CoilsWritten s t := by
    obtain rfl | ⟨r, l, rfl⟩ | ⟨ms, us, rfl, hd, hk⟩ := hi
    · exact execDisableCoils_coilsWritten h
    · exact execSetCoils_coilsWritten h
    · obtain ⟨-, hwritten⟩ | ⟨hn, -⟩ := execAdvance_coils h
      · exact hwritten
      · exact absurd ⟨hd, kindClass_of_linearKind_or_turnKind hk⟩ hn
  obtain ⟨hcfg, -⟩ := operationsKeepConfigurationMarksAndStream i s t h
  exact ⟨hwritten.coilsShown hc hp hw hcfg, (mapInjective_iff _).1 (map_legal hc v).1⟩

/-- A bound variant stays bound: SET_WIRING refuses, and no other operation writes WIRING (10_state.md R21, R33). -/
theorem exec_keeps_bound {i : Instr} {s t : State} {v : Variant} (hw : s.wiring = .bound v) (h : exec i s = .next t) :
    t.wiring = .bound v := by
  have kept : mayWrite i .wiring = false → t.wiring = .bound v := fun hm =>
    (RegValue.wiring.inj (registersWrittenOnlyAsListed i s t .wiring h hm)).trans hw
  cases i with
  | setWiring var =>
    obtain ⟨hu, -⟩ := execSetWiring_eq_next h
    rw [hw] at hu
    cases hu
  | _ => exact kept rfl

theorem exec_keeps_coilsShown {i : Instr} {s t : State} {v : Variant} (hc : configLegal s.cfg = true)
    (hp : portsWf s.cfg s.ports = true) (hw : s.wiring = .bound v) (hs : CoilsShown s v) (h : exec i s = .next t) :
    CoilsShown t v := by
  obtain ⟨hcfg, -⟩ := operationsKeepConfigurationMarksAndStream i s t h
  obtain hu | hwritten := exec_coils_cases h
  · exact hs.of_frame hcfg hu
  · exact hwritten.coilsShown hc hp hw hcfg

/-- Every line of the bound map is a coil bit, so another owner's write keeps its level (40_coil_driver.md R79). -/
theorem otherOwnerWrite_keeps_coilsShown (p v : Nat) {s : State} {u : Variant} (hw : s.wiring = .bound u)
    (hs : CoilsShown s u) : CoilsShown (otherOwnerWrite p v s) u := by
  intro i
  have hbit : portBit (otherOwnerWrite p v s) (lineBit (wiringMap s.cfg u) i).port (lineBit (wiringMap s.cfg u) i).bit =
      portBit s (lineBit (wiringMap s.cfg u) i).port (lineBit (wiringMap s.cfg u) i).bit := by
    by_cases hq : (lineBit (wiringMap s.cfg u) i).port = p
    · subst hq
      exact portBit_otherOwnerWrite_coilBit s v ⟨u, hw, i, rfl⟩
    · exact portBit_otherOwnerWrite_other s v _ hq
  exact hbit.trans (hs i)

/-- Settles O50: an operation leaves the coils and the ports or writes both together; another owner keeps the coil bits. -/
theorem stepKeepsCoilsShown : Obligations.StepKeepsCoilsShown := by
  intro s t v hp hw hs h
  obtain ⟨⟨-, -, hc⟩, ⟨-, rfl⟩ | ⟨p, w, rest, -, rfl⟩ | ⟨c, rest, i, -, -, hi⟩⟩ := step_next_cases h
  · exact ⟨hw, hs⟩
  · exact ⟨hw, otherOwnerWrite_keeps_coilsShown p w (s := dropEvent s) hw hs⟩
  · exact ⟨exec_keeps_bound (s := dropEvent s) hw hi, exec_keeps_coilsShown (s := dropEvent s) hc hp hw hs hi⟩

end Sys2Proof.Machine
end

section
/-! PROOFS. The encoder against the decoder (30_encoding.md R64 to R70), and the bits that the decoder ignores (R71). -/

namespace Sys2Proof

/-! ### Decoding an encoded word -/

/-- The patterns of an encoded SET_COILS stand at bits 11..8 and 19..16 (format C). -/
theorem encodeWord_setCoils_fields (r l : Pattern) : (encodeWord (.setCoils r l)).extractLsb' 8 4 = r ∧
    (encodeWord (.setCoils r l)).extractLsb' 16 4 = l := by
  rw [encodeWord]
  constructor
  · iterate 2 rw [BitVec.extractLsb'_append_eq_of_le (by decide)]
    exact BitVec.extractLsb'_append_eq_right
  · iterate 4 rw [BitVec.extractLsb'_append_eq_of_le (by decide)]
    exact BitVec.extractLsb'_append_eq_right

/-- The arm of SET_COILS in R70. -/
theorem decode_setCoils {c : Command} (hop : c.word.extractLsb' 0 4 = 0x3#4) : decode c = unlessReserved
    (c.word.extractLsb' 24 8 != 0 || c.word.extractLsb' 4 4 != 0)
    (.setCoils (c.word.extractLsb' 8 4) (c.word.extractLsb' 16 4)) := by
  rw [decode, hop]
  rfl

theorem decode_encode_setCoils (r l : Pattern) : decode (encode (.setCoils r l)) = .ok (.setCoils r l) := by
  obtain ⟨hright, hleft⟩ := encodeWord_setCoils_fields r l
  obtain ⟨hop, hhigh, hlow⟩ := (row_setCoils _).mp (Laws.TableRow.setCoils r l).1
  rw [decode_setCoils (c := encode (.setCoils r l)) hop]
  simp [encode, hhigh, hlow, hright, hleft, unlessReserved]

/-- The word carries the kind alone; VALUE and NOW_US come from the side operands, whatever NOW_MS is. -/
theorem decode_encodeWord_prepare (k : Kind) (value : Rat) (us ms : ClkWord) :
    decode ⟨encodeWord (.prepare k value us), value, us, ms⟩ = .ok (.prepare k value us) := by
  cases k <;> simp [decode, decodeOpcode, encodeWord, codeOfKind, kindOfCode, unlessReserved]

/-- Settles O1: one case per operation; SET_COILS by its fields, PREPARE kind by kind. -/
theorem decodeReadsBackEveryEncoding : Obligations.DecodeReadsBackEveryEncoding := by
  intro i _
  cases i with
  | setWiring v => cases v <;> rfl
  | initOutputs => rfl
  | setCoils r l => exact decode_encode_setCoils r l
  | disableCoils => rfl
  | prepare k value us => exact decode_encodeWord_prepare k value us 0
  | advance ms us => simp [decode, decodeOpcode, encode, encodeWord, unlessReserved]
  | stop ms => simp [decode, decodeOpcode, encode, encodeWord, unlessReserved]

/-! ### The ignored bits -/

theorem opcode_setWidth (w : CmdWord) : (w.extractLsb' 0 4).setWidth 32 = w &&& 0x0000000F := by
  simp only [bitVec_eq_iff, BitVec.getLsbD_and, BitVec.getLsbD_extractLsb', BitVec.getLsbD_setWidth]
  simp only [Nat.forall_lt_succ_right, Nat.not_lt_zero, false_implies, implies_true, true_and]
  simp

theorem opcode_of_and_eq {w : CmdWord} {op : BitVec 4} (h : w &&& 0x0000000F = op.setWidth 32) : w.extractLsb' 0 4 = op := by
  rw [← opcode_setWidth] at h
  simpa using congrArg (BitVec.setWidth 4) h

/-- A mask that keeps every bit of a field leaves the field. -/
theorem extractLsb'_and_of_allOnes (w : CmdWord) {m : CmdWord} {start len : Nat}
    (h : m.extractLsb' start len = BitVec.allOnes len) : (w &&& m).extractLsb' start len = w.extractLsb' start len := by
  rw [BitVec.extractLsb'_and, h, BitVec.and_allOnes]

/-- A mask that clears every bit of a field leaves 0 there. -/
theorem extractLsb'_and_of_zero (w : CmdWord) {m : CmdWord} {start len : Nat} (h : m.extractLsb' start len = 0#len) :
    (w &&& m).extractLsb' start len = 0#len := by
  rw [BitVec.extractLsb'_and, h, BitVec.and_zero]

/-- No field that the arm of SET_COILS reads holds an ignored bit. -/
theorem decode_setCoils_ignoredBits {c : Command} (hop : c.word.extractLsb' 0 4 = 0x3#4) :
    decode { c with word := c.word &&& 0xFF0F0FFF } = decode c := by
  rw [decode_setCoils hop,
    decode_setCoils (c := { c with word := c.word &&& 0xFF0F0FFF }) ((extractLsb'_and_of_allOnes _ rfl).trans hop)]
  simp only [extractLsb'_and_of_allOnes c.word (m := 0xFF0F0FFF) (start := 24) (len := 8) rfl,
    extractLsb'_and_of_allOnes c.word (m := 0xFF0F0FFF) (start := 16) (len := 4) rfl,
    extractLsb'_and_of_allOnes c.word (m := 0xFF0F0FFF) (start := 8) (len := 4) rfl,
    extractLsb'_and_of_allOnes c.word (m := 0xFF0F0FFF) (start := 4) (len := 4) rfl]

/-! ### Encoding a decoded word -/

/-- VAR is read back from its variant (R66). -/
theorem bitOfVariant_variantOfBit (w : CmdWord) : bitOfVariant (variantOfBit (w.getLsbD 4)) = w.extractLsb' 4 1 := by
  rw [BitVec.getLsbD_eq_extractLsb']
  exact (by decide : ∀ b : BitVec 1, bitOfVariant (variantOfBit (b == 1#1)) = b) _

/-- A code of R68 is read back from its kind. -/
theorem codeOfKind_kindOfCode : ∀ k : BitVec 3, codeOfKind (kindOfCode k) = k := by decide

/-- A word with 0 above an operand of `n` bits is that operand beside the opcode (formats N, W and K). -/
theorem zero_append_operand_append {m n : Nat} (w : BitVec (m + n + 4)) {op : BitVec 4} (hop : w.extractLsb' 0 4 = op)
    (hhigh : w.extractLsb' (4 + n) m = 0#m) : 0#m ++ w.extractLsb' 4 n ++ op = w := by
  rw [← hop, ← hhigh, BitVec.extractLsb'_append_extractLsb'_eq_extractLsb' rfl, BitVec.extractLsb'_append_extractLsb']

/-- A word with 0 in every field of format C that names no pattern is its two patterns beside the opcode. -/
theorem zero_append_patterns_append {w : CmdWord} {op : BitVec 4} (hop : w.extractLsb' 0 4 = op)
    (h4 : w.extractLsb' 4 4 = 0#4) (h12 : w.extractLsb' 12 4 = 0#4) (h20 : w.extractLsb' 20 4 = 0#4)
    (h24 : w.extractLsb' 24 8 = 0#8) :
    0#12 ++ w.extractLsb' 16 4 ++ 0#4 ++ w.extractLsb' 8 4 ++ 0#4 ++ op = w := by
  calc 0#12 ++ w.extractLsb' 16 4 ++ 0#4 ++ w.extractLsb' 8 4 ++ 0#4 ++ op
      = w.extractLsb' 24 8 ++ w.extractLsb' 20 4 ++ w.extractLsb' 16 4 ++ w.extractLsb' 12 4 ++ w.extractLsb' 8 4 ++
          w.extractLsb' 4 4 ++ w.extractLsb' 0 4 := by rw [hop, h4, h12, h20, h24]; rfl
    _ = w := by
      have merge (start m n : Nat) : w.extractLsb' (start + n) m ++ w.extractLsb' start n = w.extractLsb' start (m + n) :=
        BitVec.extractLsb'_append_extractLsb'_eq_extractLsb' rfl
      rw [merge 20 8 4, merge 16 12 4, merge 12 16 4, merge 8 20 4, merge 4 24 4, merge 0 28 4, BitVec.extractLsb'_eq_self]

/-- Formats with no operand in the word: the encoding is the opcode. -/
theorem setWidth_opcode_of_fields {w : CmdWord} {op : BitVec 4} (hop : w.extractLsb' 0 4 = op)
    (hreserved : (w.extractLsb' 4 28 != 0) = false) : op.setWidth 32 = w &&& ~~~ 0#32 := by
  rw [BitVec.not_zero, BitVec.and_allOnes, (row_noOperand w op).mpr ⟨hop, bne_eq_false_iff_eq.mp hreserved⟩]

/-- Format W: the encoding of VAR is the word. -/
theorem encodeWord_setWiring_of_fields {w : CmdWord} (hop : w.extractLsb' 0 4 = 0x1#4)
    (hreserved : (w.extractLsb' 5 27 != 0) = false) :
    encodeWord (.setWiring (variantOfBit (w.getLsbD 4))) = w &&& ~~~ 0#32 := by
  rw [BitVec.not_zero, BitVec.and_allOnes, encodeWord, bitOfVariant_variantOfBit]
  exact zero_append_operand_append (m := 27) (n := 1) w hop (bne_eq_false_iff_eq.mp hreserved)

/-- Format K: the encoding of KIND is the word. -/
theorem encodeWord_prepare_of_fields {w : CmdWord} (value : Rat) (us : ClkWord) (hop : w.extractLsb' 0 4 = 0x5#4)
    (hreserved : (w.extractLsb' 7 25 != 0) = false) :
    encodeWord (.prepare (kindOfCode (w.extractLsb' 4 3)) value us) = w &&& ~~~ 0#32 := by
  rw [BitVec.not_zero, BitVec.and_allOnes, encodeWord, codeOfKind_kindOfCode]
  exact zero_append_operand_append (m := 25) (n := 3) w hop (bne_eq_false_iff_eq.mp hreserved)

/-- Format C: the encoding of the two patterns is the word without its ignored bits. -/
theorem encodeWord_setCoils_of_fields {w : CmdWord} (hop : w.extractLsb' 0 4 = 0x3#4)
    (hreserved : (w.extractLsb' 24 8 != 0 || w.extractLsb' 4 4 != 0) = false) :
    encodeWord (.setCoils (w.extractLsb' 8 4) (w.extractLsb' 16 4)) = w &&& ~~~ 0x00F0F000 := by
  obtain ⟨h24, h4⟩ := Bool.or_eq_false_iff.mp hreserved
  rw [← zero_append_patterns_append (w := w &&& ~~~ 0x00F0F000) ((extractLsb'_and_of_allOnes w rfl).trans hop)
    ((extractLsb'_and_of_allOnes w rfl).trans (bne_eq_false_iff_eq.mp h4)) (extractLsb'_and_of_zero w rfl)
    (extractLsb'_and_of_zero w rfl) ((extractLsb'_and_of_allOnes w rfl).trans (bne_eq_false_iff_eq.mp h24)),
    extractLsb'_and_of_allOnes w rfl, extractLsb'_and_of_allOnes w (start := 8) rfl, encodeWord]

/-- What an arm of the decoder answers is the arm's operation, with no reserved bit set. -/
theorem encodeWord_of_arm {w : CmdWord} {reserved : Bool} {i j : Instr} (h : unlessReserved reserved i = .ok j)
    (hi : reserved = false → encodeWord i = w &&& ~~~ ignoredBits i) : encodeWord j = w &&& ~~~ ignoredBits j := by
  obtain ⟨hreserved, rfl⟩ := unlessReserved_eq_ok.mp h
  exact hi hreserved

/-- A decoded word is the encoding of its operation but for the ignored bits (R71). -/
theorem encodeWord_of_decode {c : Command} {i : Instr} (h : decode c = .ok i) :
    encodeWord i = c.word &&& ~~~ ignoredBits i := by
  rcases decode_cases c with hc | hc | hc | hc | hc | hc | hc | hc <;> obtain ⟨hop, hd⟩ := hc <;>
    have harm := hd.symm.trans h
  · exact encodeWord_of_arm harm (encodeWord_setWiring_of_fields hop)
  · exact encodeWord_of_arm harm (setWidth_opcode_of_fields hop)
  · exact encodeWord_of_arm harm (encodeWord_setCoils_of_fields hop)
  · exact encodeWord_of_arm harm (setWidth_opcode_of_fields hop)
  · exact encodeWord_of_arm harm (encodeWord_prepare_of_fields _ _ hop)
  · exact encodeWord_of_arm harm (setWidth_opcode_of_fields hop)
  · exact encodeWord_of_arm harm (setWidth_opcode_of_fields hop)
  · cases harm

/-- Settles O2: the encoder inverts the decoder row by row; no arm of the decoder reads an ignored bit. -/
theorem ignoredBitsAreTheOnlyFreedom : Obligations.IgnoredBitsAreTheOnlyFreedom := by
  refine ⟨fun _ _ => encodeWord_of_decode, fun c h => (decode_setCoils_ignoredBits ?_).symm⟩
  exact opcode_of_and_eq (op := 0x3#4) h

/-! ### The worked examples (R77) and lines (R75) -/

/-- Settles O5: each word and each operation of R77 by evaluation. -/
theorem workedEncodingsDecode : Obligations.WorkedEncodingsDecode :=
  ⟨rfl, rfl, rfl, rfl, rfl, rfl, rfl, rfl, rfl, rfl, rfl, rfl, rfl, rfl, rfl, rfl, rfl⟩

/-- Settles O6: each line of R75 by evaluation of the assembler. -/
theorem workedLinesAssemble : Obligations.WorkedLinesAssemble := by
  unfold Obligations.WorkedLinesAssemble
  decide +kernel

end Sys2Proof
end

section
/-! PROOFS. The rows of the opcode map (30_encoding.md R67), the decoder's refusals (R70, R72), and a refused word on a live
block. -/

namespace Sys2Proof

/-! ### Opcode, format and row -/

/-- A mask that keeps the bits of `m` and those outside `f` compares both at once. -/
theorem and_not_or_eq_iff {n : Nat} (w f m o : BitVec n) (hm : f &&& m = m) (ho : o &&& m = o) :
    w &&& (~~~ f ||| m) = o ↔ w &&& m = o ∧ w &&& ~~~ f = 0 := by
  have bit : ∀ w f m o : Bool, (f && m) = m → (o && m) = o →
      ((w && (!f || m)) = o ↔ (w && m) = o ∧ (w && !f) = false) := by decide
  simp only [bitVec_eq_iff, ← forall₂_and] at hm ho ⊢
  refine forall₂_congr fun i hi => ?_
  simpa [hi, -BitVec.getLsbD_eq_getElem] using
    bit (w.getLsbD i) (f.getLsbD i) (m.getLsbD i) (o.getLsbD i) (BitVec.getLsbD_and ▸ hm i hi)
      (BitVec.getLsbD_and ▸ ho i hi)

/-- The opcodes that are not assigned are the reserved ones of R70. -/
theorem opcodeAssigned_eq_false_iff (c : Command) :
    c.opcodeAssigned = false ↔ c.word.extractLsb' 0 4 = 0 ∨ 8 ≤ (c.word.extractLsb' 0 4).toNat :=
  (by decide : ∀ op : BitVec 4, (decide (0 < op) && decide (op < 8)) = false ↔ op = 0 ∨ 8 ≤ op.toNat) _

/-- A row's match is its opcode, one of 1 to 7. -/
theorem rowMatch_range (i : Instr) : 0 < rowMatch i ∧ rowMatch i < 8 := by
  cases i <;> simp [rowMatch]

/-- A row's mask keeps the opcode and the bits outside the row's format. -/
theorem rowMask_eq (i : Instr) : rowMask i = ~~~ formatBits ((rowMatch i).setWidth 4) ||| 0x0000000F := by
  cases i <;> simp [rowMask, rowMatch, formatBits]

/-- Every row's opcode is assigned. -/
theorem opcodeAssigned_of_row {c : Command} {i : Instr} (h : (c.word.extractLsb' 0 4).setWidth 32 = rowMatch i) :
    c.opcodeAssigned = true := by
  obtain ⟨hpos, hlt⟩ := rowMatch_range i
  rw [← h] at hpos hlt
  have small : ∀ op : BitVec 4, 0 < op.setWidth 32 → op.setWidth 32 < 8 →
      (decide (0 < op) && decide (op < 8)) = true := by decide
  exact small _ hpos hlt

/-- A word matches a row exactly when it has the row's opcode and no reserved bit set. -/
theorem row_iff (c : Command) (i : Instr) : c.word &&& rowMask i = rowMatch i ↔
    (c.word.extractLsb' 0 4).setWidth 32 = rowMatch i ∧ c.reservedClear = true := by
  have hformat : ∀ op, formatBits op &&& 0x0000000F = 0x0000000F := by decide
  have hmatch : rowMatch i &&& 0x0000000F = rowMatch i := by cases i <;> simp [rowMatch]
  rw [rowMask_eq, and_not_or_eq_iff _ _ _ _ (hformat _) hmatch, ← opcode_setWidth]
  refine and_congr_right fun h => ?_
  have hop : (rowMatch i).setWidth 4 = c.word.extractLsb' 0 4 := by rw [← h]; simp
  rw [hop, Command.reservedClear, beq_iff_eq]

/-! ### The decoder, row by row -/

/-- The row of an operation without operands in the word: nothing but the opcode. -/
theorem row_opcodeOnly (w : CmdWord) (op : BitVec 4) :
    w &&& 0xFFFFFFFF = op.setWidth 32 ↔ w.extractLsb' 0 4 = op ∧ w.extractLsb' 4 28 = 0 := by
  rw [← row_noOperand, show (0xFFFFFFFF : CmdWord) = BitVec.allOnes 32 from rfl, BitVec.and_allOnes]

/-- An arm of the decoder whose test is the row's refuses exactly when a reserved bit is set. -/
theorem decode_of_row {c : Command} {i : Instr} {reserved : Bool} (hd : decode c = unlessReserved reserved i)
    (hop : (c.word.extractLsb' 0 4).setWidth 32 = rowMatch i)
    (hrow : c.word &&& rowMask i = rowMatch i ↔ reserved = false) :
    ∃ j, (c.word.extractLsb' 0 4).setWidth 32 = rowMatch j ∧ decode c = unlessReserved (!c.reservedClear) j := by
  rw [row_iff, and_iff_right hop] at hrow
  have hreserved : reserved = !c.reservedClear := by cases reserved <;> simp_all
  exact ⟨i, hop, hreserved ▸ hd⟩

/-- What the decoder answers, over all rows: an operation of the word's row unless a reserved bit is set, and the refusal
for an opcode that no row has. -/
theorem decode_row (c : Command) :
    (c.opcodeAssigned = false ∧ decode c = .error .reservedOpcode) ∨
    (∃ i, (c.word.extractLsb' 0 4).setWidth 32 = rowMatch i ∧ decode c = unlessReserved (!c.reservedClear) i) := by
  rcases decode_cases c with h | h | h | h | h | h | h | h <;> obtain ⟨hop, hd⟩ := h
  · exact .inr (decode_of_row hd (by rw [hop]; rfl) ((row_setWiring _).trans (by simp [hop])))
  · exact .inr (decode_of_row hd (by rw [hop]; rfl) ((row_opcodeOnly _ 0x2#4).trans (by simp [hop])))
  · exact .inr (decode_of_row hd (by rw [hop]; rfl) ((row_setCoils _).trans (by simp [hop])))
  · exact .inr (decode_of_row hd (by rw [hop]; rfl) ((row_opcodeOnly _ 0x4#4).trans (by simp [hop])))
  · exact .inr (decode_of_row hd (by rw [hop]; rfl) ((row_prepare _).trans (by simp [hop])))
  · exact .inr (decode_of_row hd (by rw [hop]; rfl) ((row_opcodeOnly _ 0x6#4).trans (by simp [hop])))
  · exact .inr (decode_of_row hd (by rw [hop]; rfl) ((row_opcodeOnly _ 0x7#4).trans (by simp [hop])))
  · exact .inl ⟨(opcodeAssigned_eq_false_iff c).mpr hop, hd⟩

/-- The decoder answers an operation of the word's row and no other. -/
theorem rowMatch_of_decode {c : Command} {j : Instr} (h : decode c = .ok j) :
    (c.word.extractLsb' 0 4).setWidth 32 = rowMatch j ∧ c.reservedClear = true := by
  obtain ⟨-, hd⟩ | ⟨i, hi, hd⟩ := decode_row c
  · cases hd.symm.trans h
  · obtain ⟨hclear, rfl⟩ := unlessReserved_eq_ok.mp (hd.symm.trans h)
    exact ⟨hi, by simpa using hclear⟩

/-- Settles O4: both sides say that the word has the row's opcode and no reserved bit set; the opcode is the match. -/
theorem wordSelectsItsOpcodeRow : Obligations.WordSelectsItsOpcodeRow := by
  refine ⟨fun c i => ⟨fun h => ?_, fun ⟨j, hj, hrow⟩ => ?_⟩, fun w i j hi hj => ?_⟩
  · obtain ⟨hop, hclear⟩ := (row_iff c i).mp h
    obtain ⟨hreserved, -⟩ | ⟨j, hj, hd⟩ := decode_row c
    · exact absurd (opcodeAssigned_of_row hop) (by simp [hreserved])
    · exact ⟨j, by rw [hd, hclear]; rfl, hj.symm.trans hop⟩
  · obtain ⟨hop, hclear⟩ := rowMatch_of_decode hj
    exact (row_iff c i).mpr ⟨hop.trans hrow, hclear⟩
  · exact ((row_iff ⟨w, 0, 0, 0⟩ i).mp hi).1.symm.trans ((row_iff ⟨w, 0, 0, 0⟩ j).mp hj).1

/-! ### Refusals -/

/-- Settles O3: an unassigned opcode is refused by name, and an assigned one by its reserved bits alone. -/
theorem decoderRefusesExactlyReserved : Obligations.DecoderRefusesExactlyReserved := by
  intro c
  rw [← opcodeAssigned_eq_false_iff, Command.wf]
  obtain ⟨hopcode, hd⟩ | ⟨i, hi, hd⟩ := decode_row c
  · simp [hd, hopcode]
  · cases hclear : c.reservedClear <;> simp [hd, hclear, unlessReserved, opcodeAssigned_of_row hi]

end Sys2Proof

namespace Sys2Proof.Machine

/-- A command that the decoder refuses stops a live block, and its run writes REFUSED only (60_exceptions.md R135). -/
theorem step_runStep_refused {s : State} {c : Command} {rest : List HostEvent} {e : DecodeRefusal} (hl : Live s)
    (hs : s.stream = .command c :: rest) (hd : decode c = .error e) :
    step s = .refused (refusalOfDecode e) ∧
      runStep s = { s with refused := some ⟨refusalOfDecode e, some c.word⟩ } := by
  have hstep : step s = .refused (refusalOfDecode e) := by rw [step_command hl hs, hd]
  have hlive : stopped s = false := by
    obtain ⟨hfault, hrefused, -⟩ := hl
    simp [stopped, hfault, hrefused]
  refine ⟨hstep, ?_⟩
  rw [runStep, hlive, hstep]
  cases e <;> simp [recordRefusal, refusedWord, refusalOfDecode, headCommand, hs]

/-- Settles O8: the decoder refuses the word, by O3's clauses; 0x75 is PREPARE of KIND 7. -/
theorem reservedWordIsRefused : Obligations.ReservedWordIsRefused := by
  refine ⟨fun s c rest hl hs => ?_, decode_encodeWord_prepare .invalid⟩
  obtain ⟨hopcode, hfield, -⟩ := decoderRefusesExactlyReserved c
  exact ⟨fun h => step_runStep_refused hl hs (hopcode.mpr h),
    fun hassigned hset => step_runStep_refused hl hs (hfield.mpr ⟨hassigned, hset⟩)⟩

end Sys2Proof.Machine
end

section
/-! PROOFS. SET_WIRING, INIT_OUTPUTS and SET_COILS: their words (30_encoding.md R67, R70) and their meanings
(40_coil_driver.md R81 to R88). -/

namespace Sys2Proof

/-- The words that decode to an operation: those with its row's opcode, no reserved bit set, and its operands. -/
theorem decode_eq_ok_iff {c : Command} {op : BitVec 4} {reserved : Bool} {i j : Instr} (hj : rowMatch j = op.setWidth 32)
    (harm : decodeOpcode op.toNat c.word c.value c.nowUs c.nowMs = unlessReserved reserved i) :
    decode c = .ok j ↔ c.word.extractLsb' 0 4 = op ∧ reserved = false ∧ i = j := by
  have hdecode : c.word.extractLsb' 0 4 = op → decode c = unlessReserved reserved i := fun hop => by rw [decode, hop, harm]
  constructor
  · intro h
    have hmatch := (rowMatch_of_decode h).1.trans hj
    have hop := opcode_of_and_eq ((opcode_setWidth _).symm.trans hmatch)
    exact ⟨hop, unlessReserved_eq_ok.mp ((hdecode hop).symm.trans h)⟩
  · rintro ⟨hop, h⟩
    exact (hdecode hop).trans (unlessReserved_eq_ok.mpr h)

theorem decode_eq_setWiring_iff (c : Command) (v : Variant) :
    decode c = .ok (.setWiring v) ↔ c.word &&& 0xFFFFFFEF = 1 ∧ v = if c.word.getLsbD 4 then .b else .a := by
  rw [decode_eq_ok_iff (op := 0x1#4) rfl rfl, row_setWiring, bne_eq_false_iff_eq, Instr.setWiring.injEq, eq_comm (b := v),
    and_assoc, variantOfBit]

theorem decode_eq_initOutputs_iff (c : Command) : decode c = .ok .initOutputs ↔ c.word = 2 := by
  rw [decode_eq_ok_iff (op := 0x2#4) rfl rfl, bne_eq_false_iff_eq, and_iff_left rfl]
  exact (row_noOperand c.word 0x2#4).symm

theorem decode_eq_setCoils_iff (c : Command) (r l : Pattern) :
    decode c = .ok (.setCoils r l) ↔
      c.word &&& 0xFF0000FF = 3 ∧ r = c.word.extractLsb' 8 4 ∧ l = c.word.extractLsb' 16 4 := by
  rw [decode_eq_ok_iff (op := 0x3#4) rfl rfl, row_setCoils, Bool.or_eq_false_iff, bne_eq_false_iff_eq, bne_eq_false_iff_eq,
    Instr.setCoils.injEq, eq_comm (b := r), eq_comm (b := l)]
  simp only [and_assoc]

end Sys2Proof

namespace Sys2Proof.Machine

open Sys2Proof.Claims

theorem execSetWiring_unbound {s : State} (hw : s.wiring = .unbound) (v : Variant) :
    execSetWiring v s = .next (putResult (putWiring s v) none) := by
  rw [execSetWiring, hw]

theorem execSetWiring_bound {s : State} {w : Variant} (hw : s.wiring = .bound w) (v : Variant) :
    execSetWiring v s = .refused .wiringRebind := by
  rw [execSetWiring, hw]

theorem execInitOutputs_unbound {s : State} (hw : s.wiring = .unbound) : execInitOutputs s = .fault .notInitialised := by
  rw [execInitOutputs, hw]

theorem execInitOutputs_bound {s : State} {v : Variant} (hw : s.wiring = .bound v) :
    execInitOutputs s = if s.outInit then .refused .outputsReinit else .next (putResult (putOutInit s) none) := by
  rw [execInitOutputs, hw]

/-- SET_COILS before boot (40_coil_driver.md R85, R88), beside `execSetCoils_booted`. -/
theorem execSetCoils_unbooted {s : State} (h : ∀ v, ¬ Booted s v) (r l : Pattern) :
    execSetCoils r l s = .fault .notInitialised := by
  rw [execSetCoils, setCoilsInternal_unbooted h, andThen_fault]

/-- Settles O14: the row of format W, and the two cases of WIRING. -/
theorem setWiringMeaning : Obligations.SetWiringMeaning :=
  ⟨decode_eq_setWiring_iff, fun _ v hw => execSetWiring_unbound hw v, fun _ v _ hw => execSetWiring_bound hw v⟩

/-- Settles O15: the row without operands, and the cases of WIRING and OUT_INIT. -/
theorem initOutputsMeaning : Obligations.InitOutputsMeaning := by
  refine ⟨decode_eq_initOutputs_iff, fun s v hw ho => ?_, fun s hw => execInitOutputs_unbound hw, fun s v hw ho => ?_⟩
  · exact (execInitOutputs_bound hw).trans (if_neg (by simp [ho]))
  · exact (execInitOutputs_bound hw).trans (if_pos ho)

/-- Settles O16: the row of format C, which reads no high nibble, and the coil write before and after boot. -/
theorem setCoilsMeaning : Obligations.SetCoilsMeaning :=
  ⟨decode_eq_setCoils_iff, fun _ _ r l hv => execSetCoils_booted hv r l, fun _ r l h => execSetCoils_unbooted h r l⟩

end Sys2Proof.Machine
end

section
/-! PROOFS. The thresholds of an action in the default profile (41_action_engine.md R102, R103, R117), and the numbers of a legal
configuration (10_state.md R35). -/

namespace Sys2Proof.Machine

open Sys2Proof.Claims

/-- The quantity of R102 and R103 lies between 0 and the step count. -/
theorem thresholdTerm_bounds {f : Rat} (h0 : 0 ≤ f) (h1 : f ≤ 1) (n cap : Nat) :
    0 ≤ min (f * n) (cap : Rat) ∧ min (f * n) (cap : Rat) ≤ n :=
  ⟨le_min (mul_nonneg h0 n.cast_nonneg) cap.cast_nonneg,
    (min_le_left _ _).trans (mul_le_of_le_one_left n.cast_nonneg h1)⟩

/-! ### The default profile -/

/-- R102 in closed form: `n - min(2n/5, 345)` is cut at `n - min(ceil(2n/5), 345)`. -/
theorem accelThreshold_default {c : Config} (h : c.hasDefaultProfile) (n : Nat) :
    accelThreshold c n = n - accelSteps n := by
  obtain ⟨hfrac, hcap, -⟩ := h
  have hle : accelSteps n ≤ n := by unfold accelSteps; omega
  obtain ⟨-, hterm⟩ := thresholdTerm_bounds (f := 2 / 5) (by norm_num) (by norm_num) n 345
  rw [accelThreshold, truncNat_eq, minRat_eq, hfrac, hcap, Nat.floor_eq_iff (sub_nonneg.mpr hterm), Nat.cast_sub hle]
  obtain hn | hn := le_total (2 * n) 1725
  · have hceil : 2 * n ≤ 5 * accelSteps n ∧ 5 * accelSteps n < 2 * n + 5 := by unfold accelSteps; omega
    have hceil : 2 * (n : Rat) ≤ 5 * accelSteps n ∧ 5 * (accelSteps n : Rat) < 2 * n + 5 := mod_cast hceil
    have hn : 2 * (n : Rat) ≤ 1725 := mod_cast hn
    rw [min_eq_left (by push_cast; linarith)]
    constructor <;> linarith
  · have hcapped : accelSteps n = 345 := by unfold accelSteps; omega
    have hn : 1725 ≤ 2 * (n : Rat) := mod_cast hn
    rw [min_eq_right (by push_cast; linarith), hcapped]
    constructor <;> linarith

/-- R103 in closed form. -/
theorem decelThreshold_default {c : Config} (h : c.hasDefaultProfile) (n : Nat) : decelThreshold c n = decelBound n := by
  obtain ⟨-, -, hfrac, hcap, -⟩ := h
  have hfloor : ⌊27 / 100 * (n : Rat)⌋₊ = 27 * n / 100 := by
    rw [← Nat.floor_div_eq_div (K := Rat)]
    push_cast
    ring_nf
  rw [decelThreshold, truncNat_eq, minRat_eq, hfrac, hcap, Nat.floor_mono.map_min, hfloor, Nat.floor_natCast, decelBound]

/-- R117: the two phases of an action never overlap. -/
theorem accelSteps_add_decelBound_le (n : Nat) : accelSteps n + decelBound n ≤ n := by
  unfold accelSteps decelBound
  omega

/-! ### The numbers of a legal configuration -/

theorem truncNat_le {q : Rat} {n : Nat} (h : q ≤ n) : truncNat q ≤ n := by
  rw [truncNat_eq]
  exact Nat.floor_le_of_le h

/-- A word holds a quantity's floor where the quantity is not negative and its count fits. -/
theorem toNat_ofNat_truncNat {q : Rat} (h0 : 0 ≤ q) (hfits : truncNat q < 2 ^ 32) :
    ((BitVec.ofNat 32 (truncNat q)).toNat : Int) = ⌊q⌋ := by
  rw [BitVec.toNat_ofNat, Nat.mod_eq_of_lt hfits, truncNat_eq, Int.natCast_floor_eq_floor h0]

theorem accelUntil_toNat {c : Config} {n : Nat} (h0 : 0 ≤ c.accelFrac) (h1 : c.accelFrac ≤ 1) (hn : n < 2 ^ 32) :
    ((BitVec.ofNat 32 (accelThreshold c n)).toNat : Int) = ⌊(n : Rat) - min (c.accelFrac * n) (c.accelCap : Rat)⌋ := by
  obtain ⟨hlow, hhigh⟩ := thresholdTerm_bounds h0 h1 n c.accelCap
  rw [accelThreshold, minRat_eq]
  exact toNat_ofNat_truncNat (sub_nonneg.mpr hhigh) ((truncNat_le (sub_le_self _ hlow)).trans_lt hn)

theorem decelBelow_toNat {c : Config} {n : Nat} (h0 : 0 ≤ c.decelFrac) (h1 : c.decelFrac ≤ 1) (hn : n < 2 ^ 32) :
    ((BitVec.ofNat 32 (decelThreshold c n)).toNat : Int) = ⌊min (c.decelFrac * n) (c.decelCap : Rat)⌋ := by
  obtain ⟨hlow, hhigh⟩ := thresholdTerm_bounds h0 h1 n c.decelCap
  rw [decelThreshold, minRat_eq]
  exact toNat_ofNat_truncNat hlow ((truncNat_le hhigh).trans_lt hn)

theorem baseInterval_toNat {c : Config} (hsps : 0 < c.sps) (hfits : baseInterval c < 2 ^ 32) :
    ((BitVec.ofNat 32 (baseInterval c)).toNat : Int) = ⌊(c.usPerS : Rat) / c.sps⌋ :=
  toNat_ofNat_truncNat (div_nonneg c.usPerS.cast_nonneg hsps.le) hfits

end Sys2Proof.Machine
end

section
/-! PROOFS. PREPARE (41_action_engine.md R93 to R104): its word, what it arms, and its fault. -/

namespace Sys2Proof

theorem decode_eq_prepare_iff (c : Command) (k : Kind) (value : Rat) (us : ClkWord) :
    decode c = .ok (.prepare k value us) ↔
      c.word &&& 0xFFFFFF8F = 5 ∧ k = kindOfCode (c.word.extractLsb' 4 3) ∧ value = c.value ∧ us = c.nowUs := by
  rw [decode_eq_ok_iff (op := 0x5#4) rfl rfl, row_prepare, bne_eq_false_iff_eq, Instr.prepare.injEq, eq_comm (b := k),
    eq_comm (b := value), eq_comm (b := us), and_assoc]

end Sys2Proof

namespace Sys2Proof.Machine

open Sys2Proof.Claims

/-! ### The two answers, the converse of `execPrepare_eq_next` -/

theorem execPrepare_of_fits {k : Kind} {value : Rat} {s : State}
    (h : stepCount s.cfg (effectiveKind s.cfg k) value < 2 ^ 32) (us : ClkWord) :
    execPrepare k value us s =
      .next (putResult (arm (effectiveKind s.cfg k) (stepCount s.cfg (effectiveKind s.cfg k) value) us s) none) :=
  if_neg (Nat.not_le.mpr h)

theorem execPrepare_of_overflow {k : Kind} {value : Rat} {s : State}
    (h : 2 ^ 32 ≤ stepCount s.cfg (effectiveKind s.cfg k) value) (us : ClkWord) :
    execPrepare k value us s = .fault .stepCountOverflow :=
  if_pos h

/-- The direction of the model is that of R100. -/
theorem armDirection_registers (k : Kind) (s : State) :
    (armDirection k s).seqStart = startOf k s.seqStart ∧ (armDirection k s).seqStep = stepOf k s.seqStep := by
  cases k <;> exact ⟨rfl, rfl⟩

/-- Settles O54: the quantities of R93 lie between 0 and the step count, or are the base interval, so the words hold them
whole. -/
theorem prepareInLegalConfiguration : Obligations.PrepareInLegalConfiguration := by
  refine ⟨decode_eq_prepare_iff, fun s kind value us hc => ?_⟩
  simp only [← effectiveKind_eq, ← stepCount_eq]
  refine ⟨fun hn => ?_, fun hn => execPrepare_of_overflow hn us⟩
  obtain ⟨-, -, hsps, hbase, -, -, -, -, -, ha0, ha1, hd0, hd1, -, -⟩ := (configurationLegalValues s.cfg).mp hc
  obtain ⟨hstart, hstep⟩ := armDirection_registers (effectiveKind s.cfg kind) s
  refine ⟨_, execPrepare_of_fits hn us, ?_, ?_⟩ <;> rw [arm_eq]
  · rw [hstart, hstep]
    rfl
  · exact ⟨Nat.mod_eq_of_lt hn, baseInterval_toNat hsps hbase, accelUntil_toNat ha0 ha1 hn, decelBelow_toNat hd0 hd1 hn⟩

/-! ### The operand VALUE -/

theorem stepCount_neg (c : Config) (k : Kind) (value : Rat) : stepCount c k (-value) = stepCount c k value := by
  simp only [stepCount, absRat_eq, abs_neg]

/-- Settles O22: VALUE reaches PREPARE through the step count alone, which takes its absolute value. -/
theorem signOfValueIsIgnored : Obligations.SignOfValueIsIgnored := by
  intro s k value us
  simp only [exec, execPrepare, stepCount_neg]

/-! ### The thresholds in the default profile -/

/-- What PREPARE leaves in STEPS, ACCEL_UNTIL and DECEL_BELOW in the default profile. -/
theorem execPrepare_thresholds {k : Kind} {value : Rat} {us : ClkWord} {s t : State} (hc : s.cfg.hasDefaultProfile)
    (h : execPrepare k value us s = .next t) :
    t.accelUntil.toNat = t.steps.toNat - accelSteps t.steps.toNat ∧ t.decelBelow.toNat = decelBound t.steps.toNat := by
  obtain ⟨hn, rfl⟩ := execPrepare_eq_next h
  generalize stepCount s.cfg (effectiveKind s.cfg k) value = n at hn
  have hbounds := accelSteps_add_decelBound_le n
  simp only [putResult_steps, putResult_accelUntil, putResult_decelBelow, arm_eq, BitVec.toNat_ofNat, Nat.mod_eq_of_lt hn,
    accelThreshold_default hc, decelThreshold_default hc]
  exact ⟨Nat.mod_eq_of_lt (by omega), Nat.mod_eq_of_lt (by omega)⟩

/-- Settles O23: the statement writes `accelSteps` and `decelBound` out. -/
theorem defaultThresholds : Obligations.DefaultThresholds :=
  fun _ _ _ _ _ hc h => execPrepare_thresholds hc h

/-- Settles O24: the two thresholds' closed forms leave room for each other at every step count. -/
theorem defaultPhasesNeverOverlap : Obligations.DefaultPhasesNeverOverlap := by
  intro s t k value us hc h _
  obtain ⟨haccel, hdecel⟩ := execPrepare_thresholds hc h
  have := accelSteps_add_decelBound_le t.steps.toNat
  omega

end Sys2Proof.Machine
end

section
/-! PROOFS. ADVANCE and STOP (41_action_engine.md R105 to R122): their words, and what ADVANCE answers in each case. -/

namespace Sys2Proof

theorem decode_eq_disableCoils_iff (c : Command) : decode c = .ok .disableCoils ↔ c.word = 4 := by
  rw [decode_eq_ok_iff (op := 0x4#4) rfl rfl, bne_eq_false_iff_eq, and_iff_left rfl]
  exact (row_noOperand c.word 0x4#4).symm

theorem decode_eq_advance_iff (c : Command) (ms us : ClkWord) :
    decode c = .ok (.advance ms us) ↔ c.word = 6 ∧ ms = c.nowMs ∧ us = c.nowUs := by
  rw [decode_eq_ok_iff (op := 0x6#4) rfl rfl, bne_eq_false_iff_eq, Instr.advance.injEq, eq_comm (b := ms), eq_comm (b := us),
    ← and_assoc]
  exact and_congr_left' (row_noOperand c.word 0x6#4).symm

theorem decode_eq_stop_iff (c : Command) (ms : ClkWord) : decode c = .ok (.stop ms) ↔ c.word = 7 ∧ ms = c.nowMs := by
  rw [decode_eq_ok_iff (op := 0x7#4) rfl rfl, bne_eq_false_iff_eq, Instr.stop.injEq, eq_comm (b := ms), ← and_assoc]
  exact and_congr_left' (row_noOperand c.word 0x7#4).symm

end Sys2Proof

namespace Sys2Proof.Machine

open Sys2Proof.Claims

/-- Settles O17: DISABLE_COILS is the coil write of two empty patterns. -/
theorem disableCoilsMeaning : Obligations.DisableCoilsMeaning :=
  ⟨decode_eq_disableCoils_iff, fun _ _ hv => execSetCoils_booted hv 0 0, fun _ h => execSetCoils_unbooted h 0 0⟩

/-! ### The three ways of ADVANCE, each under its condition -/

/-- `Due` over integers (00_scope.md R16; 41_action_engine.md R106). -/
theorem due_iff (s : State) (us : ClkWord) :
    Due s us ↔ s.steps ≠ 0 ∧ (s.interval.toNat : Int) ≤ ((us.toNat : Int) - s.lastStepUs.toNat) % 2 ^ 32 := by
  rw [← elapsed_toNat, Int.ofNat_le]
  rfl

theorem execAdvance_idle {s : State} (h : s.steps = 0) (ms us : ClkWord) :
    execAdvance ms us s = .next (putResult s (some .idle)) :=
  if_pos h

theorem execAdvance_pending {s : State} {us : ClkWord} (h : s.steps ≠ 0) (hd : ¬ Due s us) (ms : ClkWord) :
    execAdvance ms us s = .next (putResult s (some .pending)) := by
  rw [execAdvance, if_neg h, if_pos (Nat.lt_of_not_le fun hle => hd ⟨h, hle⟩)]

theorem execAdvance_due {s : State} {us : ClkWord} (hd : Due s us) (ms : ClkWord) :
    execAdvance ms us s = takeStep ms us s := by
  rw [execAdvance, if_neg hd.1, if_neg (Nat.not_lt.mpr hd.2)]

/-- Settles O28: with no step due ADVANCE writes the status alone. -/
theorem advanceWithoutStepWritesNothing : Obligations.AdvanceWithoutStepWritesNothing := by
  refine fun s ms us => ⟨fun h => execAdvance_idle h ms us, fun h hlt => execAdvance_pending h ?_ ms⟩
  rw [due_iff]
  exact fun hd => absurd hd.2 (not_le.mpr hlt)

/-- Settles O37: STOP clears STEPS, and with STEPS = 0 an ADVANCE is idle. -/
theorem stopMeaning : Obligations.StopMeaning := by
  refine ⟨decode_eq_stop_iff, fun s ms => rfl, fun s t ms ms' us h => ?_⟩
  obtain rfl := execStop_eq_next (ms := ms) h
  exact execAdvance_idle rfl ms' us

/-! ### One step by the class of the action -/

/-- The state after a step (41_action_engine.md R107 to R116) that left these coils, ports and index. -/
def stepped (s : State) (ms us : ClkWord) (right left : Pattern) (ports : Ports) (idx : SeqIndex) : State :=
  { s with
    interval := rampedInterval s, coilR := right, coilL := left, ports := ports, seqIdx := idx, steps := s.steps - 1,
    lastStepUs := us, actMs := ms, result := some (if s.steps = 1 then .finished else .pending) }

theorem driveCoils_linear {s : State} (hk : kindClass s.actKind = .linear) :
    driveCoils s = setCoilsInternal (seqAt s.cfg (3 - s.seqIdx)) (seqAt s.cfg s.seqIdx) s := by
  rw [driveCoils, hk]

theorem driveCoils_turn {s : State} (hk : kindClass s.actKind = .turn) :
    driveCoils s = setCoilsInternal (seqAt s.cfg s.seqIdx) (seqAt s.cfg s.seqIdx) s := by
  rw [driveCoils, hk]

theorem driveCoils_coilless {s : State} (hk : kindClass s.actKind = .pause ∨ kindClass s.actKind = .invalid) :
    driveCoils s = .next s := by
  unfold driveCoils
  obtain hk | hk := hk <;> rw [hk]

theorem moveIndex_driving {s : State} (hk : kindClass s.actKind = .linear ∨ kindClass s.actKind = .turn) :
    moveIndex s = putIndex s (nextIndex s.seqIdx s.seqStart s.seqStep) := by
  unfold moveIndex
  obtain hk | hk := hk <;> rw [hk]

theorem moveIndex_coilless {s : State} (hk : kindClass s.actKind = .pause ∨ kindClass s.actKind = .invalid) :
    moveIndex s = s := by
  unfold moveIndex
  obtain hk | hk := hk <;> rw [hk]

/-- A due step on a booted block that drives the coils with these patterns. -/
theorem execAdvance_of_driveCoils {s : State} {v : Variant} {us : ClkWord} {right left : Pattern} (hd : Due s us)
    (hv : Booted s v) (hk : kindClass s.actKind = .linear ∨ kindClass s.actKind = .turn)
    (hdrive : driveCoils (putInterval s (rampedInterval s)) = setCoilsInternal right left (putInterval s (rampedInterval s)))
    (ms : ClkWord) :
    execAdvance ms us s = .next (stepped s ms us right left (maskedWrite (wiringMap s.cfg v) (left ++ right) s.ports)
      (nextIndex s.seqIdx s.seqStart s.seqStep)) := by
  have hv' : Booted (putInterval s (rampedInterval s)) v := hv
  rw [execAdvance_due hd, takeStep, hdrive, setCoilsInternal_booted hv', andThen_next, moveIndex_driving (by exact hk),
    stepped, ← stepStatus_pred]
  rfl

theorem execAdvance_linear {s : State} {v : Variant} {us : ClkWord} (hd : Due s us) (hv : Booted s v)
    (hk : kindClass s.actKind = .linear) (ms : ClkWord) :
    execAdvance ms us s = .next (stepped s ms us (seqAt s.cfg (3 - s.seqIdx)) (seqAt s.cfg s.seqIdx)
      (maskedWrite (wiringMap s.cfg v) (seqAt s.cfg s.seqIdx ++ seqAt s.cfg (3 - s.seqIdx)) s.ports)
      (nextIndex s.seqIdx s.seqStart s.seqStep)) :=
  execAdvance_of_driveCoils hd hv (.inl hk) (driveCoils_linear hk) ms

theorem execAdvance_turn {s : State} {v : Variant} {us : ClkWord} (hd : Due s us) (hv : Booted s v)
    (hk : kindClass s.actKind = .turn) (ms : ClkWord) :
    execAdvance ms us s = .next (stepped s ms us (seqAt s.cfg s.seqIdx) (seqAt s.cfg s.seqIdx)
      (maskedWrite (wiringMap s.cfg v) (seqAt s.cfg s.seqIdx ++ seqAt s.cfg s.seqIdx) s.ports)
      (nextIndex s.seqIdx s.seqStart s.seqStep)) :=
  execAdvance_of_driveCoils hd hv (.inr hk) (driveCoils_turn hk) ms

/-- A Pause step needs no booted block (41_action_engine.md R105). -/
theorem execAdvance_coilless {s : State} {us : ClkWord} (hd : Due s us)
    (hk : kindClass s.actKind = .pause ∨ kindClass s.actKind = .invalid) (ms : ClkWord) :
    execAdvance ms us s = .next (stepped s ms us s.coilR s.coilL s.ports s.seqIdx) := by
  rw [execAdvance_due hd, takeStep, driveCoils_coilless (by exact hk), andThen_next, moveIndex_coilless (by exact hk), stepped,
    ← stepStatus_pred]
  rfl

theorem execAdvance_unbooted {s : State} {us : ClkWord} (hd : Due s us) (hv : ∀ v, ¬ Booted s v)
    (hk : kindClass s.actKind = .linear ∨ kindClass s.actKind = .turn) (ms : ClkWord) :
    execAdvance ms us s = .fault .notInitialised := by
  have hv' : ∀ v, ¬ Booted (putInterval s (rampedInterval s)) v := hv
  rw [execAdvance_due hd, takeStep]
  obtain hk | hk := hk
  · rw [driveCoils_linear (by exact hk), setCoilsInternal_unbooted hv', andThen_fault]
  · rw [driveCoils_turn (by exact hk), setCoilsInternal_unbooted hv', andThen_fault]

/-- Settles O29: the row without operands, and a due step by the class of the action and by whether the block is booted. -/
theorem advanceTakesOneStep : Obligations.AdvanceTakesOneStep := by
  refine ⟨decode_eq_advance_iff, fun s ms us h0 hle => ?_⟩
  have hd : Due s us := (due_iff s us).mpr ⟨h0, hle⟩
  simp only [← rampedInterval_eq]
  refine ⟨fun v hv hk => ?_, fun v hv hk => ?_, fun hk => ?_, fun hv hk => ?_⟩
  · exact execAdvance_linear hd hv ((kindClass_linear_iff _).mpr hk) ms
  · exact execAdvance_turn hd hv ((kindClass_turn_iff _).mpr hk) ms
  · exact execAdvance_coilless hd (hk.imp (congrArg kindClass) (congrArg kindClass)) ms
  · exact execAdvance_unbooted hd hv (kindClass_of_linearKind_or_turnKind hk) ms

/-! ### What a step counts, stamps and returns -/

/-- An ADVANCE that answers a next state counts STEPS down exactly when a step is due. -/
theorem execAdvance_steps_ne_iff {ms us : ClkWord} {s t : State} (h : execAdvance ms us s = .next t) :
    t.steps ≠ s.steps ↔ Due s us := by
  obtain ⟨h0, rfl⟩ | ⟨-, hnd, rfl⟩ | ⟨hd, right, left, ports, idx, rfl, -⟩ := execAdvance_eq_next h
  · exact iff_of_false (fun hne => hne rfl) fun hd => hd.1 h0
  · exact iff_of_false (fun hne => hne rfl) hnd
  · exact iff_of_true (by bv_omega) hd

/-- The registers beside the coils and the index after a due step, of whatever class. -/
theorem execAdvance_due_registers {ms us : ClkWord} {s t : State} (hd : Due s us) (h : execAdvance ms us s = .next t) :
    t.steps.toNat + 1 = s.steps.toNat ∧ t.interval = rampedInterval s ∧ t.lastStepUs = us ∧ t.actMs = ms := by
  refine ⟨(execAdvance_steps h).resolve_left ((execAdvance_steps_ne_iff h).mpr hd), ?_⟩
  obtain ⟨h0, -⟩ | ⟨-, hnd, -⟩ | ⟨-, right, left, ports, idx, rfl, -⟩ := execAdvance_eq_next h
  · exact absurd h0 hd.1
  · exact absurd hd hnd
  · exact ⟨rfl, rfl, rfl⟩

/-- An ADVANCE with no step due changes its result at most. -/
theorem execAdvance_not_due {ms us : ClkWord} {s t : State} (hd : ¬ Due s us) (h : execAdvance ms us s = .next t) :
    t = putResult s t.result := by
  obtain ⟨-, rfl⟩ | ⟨-, -, rfl⟩ | ⟨hd', -⟩ := execAdvance_eq_next h
  · rfl
  · rfl
  · exact absurd hd' hd

/-- Settles O30: STEPS changes only by a due step, which counts it down once. -/
theorem advanceStepsOnlyWhenDue : Obligations.AdvanceStepsOnlyWhenDue := by
  intro s t ms us h hne
  have hd := (execAdvance_steps_ne_iff h).mp hne
  exact ⟨((due_iff s us).mp hd).2, (execAdvance_due_registers hd h).1⟩

/-- The modular difference of two readings of one counter (00_scope.md R16; 70_reset_and_hazards.md R154). -/
theorem elapsed_ofNat {now last : Nat} (h : last ≤ now) :
    (elapsed (BitVec.ofNat 32 now) (BitVec.ofNat 32 last)).toNat = (now - last) % 2 ^ 32 := by
  simp only [elapsed, BitVec.toNat_sub, BitVec.toNat_ofNat]
  omega

/-- Settles O31: the modular difference never exceeds the real one, and is the real one below 2^32. -/
theorem stepWaitsItsIntervalInRealTime : Obligations.StepWaitsItsIntervalInRealTime := by
  intro s t T T' ms hT hle h
  have hdue : Due s (BitVec.ofNat 32 T') ↔ s.steps ≠ 0 ∧ s.interval.toNat ≤ (T' - T) % 2 ^ 32 := by
    rw [Due, hT, elapsed_ofNat hle]
  refine ⟨fun hne => ?_, fun h0 hreached hlimit => ?_⟩
  · have hd := (execAdvance_steps_ne_iff h).mp hne
    obtain ⟨-, -, hstamp, -⟩ := execAdvance_due_registers hd h
    have hwait := (hdue.mp hd).2
    have hmod := Nat.mod_le (T' - T) (2 ^ 32)
    exact ⟨by omega, hstamp⟩
  · have hd := hdue.mpr ⟨h0, by rw [Nat.mod_eq_of_lt (by omega)]; omega⟩
    exact (execAdvance_due_registers hd h).1

/-- Settles O36: the status tells the last step from every other ADVANCE, and after it STEPS is 0. -/
theorem finishedOnceOnTheLastStep : Obligations.FinishedOnceOnTheLastStep := by
  intro s t ms us h
  obtain ⟨hidle, hpending, hstep⟩ := execAdvance_result h
  have hfinished : t.result = some .finished ↔ s.steps = 1 ∧ Due s us := by
    by_cases hd : Due s us
    · rw [hstep hd, and_iff_left hd]
      by_cases hone : s.steps = 1 <;> simp [hone]
    · refine iff_of_false ?_ fun hlast => hd hlast.2
      by_cases h0 : s.steps = 0
      · simp [hidle h0]
      · simp [hpending h0 hd]
  refine ⟨hfinished, fun hf => ?_⟩
  obtain ⟨hone, hd⟩ := hfinished.mp hf
  have hsteps := (execAdvance_due_registers hd h).1
  have h0 : t.steps = 0 := by
    rw [hone] at hsteps
    bv_omega
  exact ⟨h0, execAdvance_idle h0⟩

/-! ### The millisecond reading -/

theorem sameButActMs_takeStep (s : State) (ms ms' us : ClkWord) : sameButActMs (takeStep ms us s) (takeStep ms' us s) := by
  unfold takeStep
  cases driveCoils (putInterval s (rampedInterval s)) with
  | next u => rfl
  | fault r => rfl
  | refused r => rfl

/-- Settles O38: NOW_MS goes to the stamp of a step, and nothing else reads it. -/
theorem millisecondReadingReachesOnlyActMs : Obligations.MillisecondReadingReachesOnlyActMs := by
  refine ⟨fun s ms ms' us => ?_, fun s ms ms' => rfl, fun s t ms us h => ?_⟩
  · show sameButActMs (execAdvance ms us s) (execAdvance ms' us s)
    by_cases hd : Due s us
    · rw [execAdvance_due hd, execAdvance_due hd]
      exact sameButActMs_takeStep s ms ms' us
    · by_cases h0 : s.steps = 0
      · rw [execAdvance_idle h0, execAdvance_idle h0]
        rfl
      · rw [execAdvance_pending h0 hd, execAdvance_pending h0 hd]
        rfl
  · by_cases hd : Due s us
    · obtain ⟨-, -, -, hms⟩ := execAdvance_due_registers hd h
      rw [if_neg ((execAdvance_steps_ne_iff h).mpr hd), hms]
    · rw [if_pos (not_not.mp (mt (execAdvance_steps_ne_iff h).mp hd)), execAdvance_not_due hd h, putResult_actMs]

end Sys2Proof.Machine
end

section
/-! PROOFS. Kinds that behave as another: the Alt turns as the primary turns (41_action_engine.md R126), and a Pause as a linear
move without coils (R125). -/

namespace Sys2Proof.Machine

open Sys2Proof.Claims

/-! ### The Alt turns -/

/-- PREPARE reads of a kind the class and the direction; the kind itself goes to ACT_KIND alone. -/
theorem execPrepare_sameButKind {s : State} {k k' : Kind}
    (hclass : kindClass (effectiveKind s.cfg k) = kindClass (effectiveKind s.cfg k'))
    (hdirection : direction (effectiveKind s.cfg k) = direction (effectiveKind s.cfg k')) (value : Rat) (us : ClkWord) :
    sameButKind (execPrepare k value us s) (execPrepare k' value us s) := by
  have hcount : stepCount s.cfg (effectiveKind s.cfg k) value = stepCount s.cfg (effectiveKind s.cfg k') value := by
    rw [stepCount, stepCount, hclass]
  have harm : armDirection (effectiveKind s.cfg k) s = armDirection (effectiveKind s.cfg k') s := by
    rw [armDirection, armDirection, hdirection]
  by_cases hn : stepCount s.cfg (effectiveKind s.cfg k') value < 2 ^ 32
  · rw [execPrepare_of_fits hn, execPrepare_of_fits (hcount ▸ hn), hcount, arm_eq, arm_eq, harm]
    rfl
  · have hn := Nat.not_lt.mp hn
    rw [execPrepare_of_overflow hn, execPrepare_of_overflow (hcount ▸ hn)]
    rfl

/-- ADVANCE reads of a kind the class alone: two turns step alike. -/
theorem execAdvance_sameButKind {k k' : Kind} (hk : kindClass k = .turn) (hk' : kindClass k' = .turn) (s : State)
    (ms us : ClkWord) :
    sameButKind (execAdvance ms us { s with actKind := k }) (execAdvance ms us { s with actKind := k' }) := by
  by_cases h0 : s.steps = 0
  · rw [execAdvance_idle (by exact h0), execAdvance_idle (by exact h0)]
    rfl
  by_cases hd : Due s us
  · by_cases hv : ∃ v, Booted s v
    · obtain ⟨v, hv⟩ := hv
      rw [execAdvance_turn (v := v) (by exact hd) (by exact hv) hk, execAdvance_turn (v := v) (by exact hd) (by exact hv) hk']
      rfl
    · have hv := not_exists.mp hv
      rw [execAdvance_unbooted (by exact hd) (by exact hv) (.inr hk),
        execAdvance_unbooted (by exact hd) (by exact hv) (.inr hk')]
      rfl
  · rw [execAdvance_pending (by exact h0) (by exact hd), execAdvance_pending (by exact h0) (by exact hd)]
    rfl

theorem execPrepare_actKind {k : Kind} {value : Rat} {us : ClkWord} {s t : State} (h : execPrepare k value us s = .next t) :
    t.actKind = effectiveKind s.cfg k := by
  obtain ⟨-, rfl⟩ := execPrepare_eq_next h
  rw [putResult_actKind, arm_eq]

/-- Mirrored or not, an Alt turn has the class and the direction of its primary turn. -/
theorem effectiveKind_alt (c : Config) :
    (kindClass (effectiveKind c .turnLeftAlt) = kindClass (effectiveKind c .turnLeft) ∧
      direction (effectiveKind c .turnLeftAlt) = direction (effectiveKind c .turnLeft)) ∧
    (kindClass (effectiveKind c .turnRightAlt) = kindClass (effectiveKind c .turnRight) ∧
      direction (effectiveKind c .turnRightAlt) = direction (effectiveKind c .turnRight)) := by
  unfold effectiveKind
  cases c.fixReversed <;> decide

/-- Settles O26: PREPARE and ADVANCE read of a turn what its Alt turn shares, and the mirror is the model's. -/
theorem altTurnsBehaveAsTurns : Obligations.AltTurnsBehaveAsTurns := by
  refine ⟨fun s value us => ?_, fun s ms us => ?_, fun s t value us hfix => ?_⟩
  · obtain ⟨⟨hclassL, hdirL⟩, ⟨hclassR, hdirR⟩⟩ := effectiveKind_alt s.cfg
    exact ⟨execPrepare_sameButKind hclassL hdirL value us, execPrepare_sameButKind hclassR hdirR value us⟩
  · exact ⟨execAdvance_sameButKind rfl rfl s ms us, execAdvance_sameButKind rfl rfl s ms us⟩
  · have hmirror : ∀ k, effectiveKind s.cfg k = mirror k := fun k => if_pos hfix
    exact ⟨fun h => (execPrepare_actKind h).trans (hmirror _), fun h => (execPrepare_actKind h).trans (hmirror _)⟩

/-! ### The Pause -/

/-- A Pause counts as a linear move of either direction (41_action_engine.md R95). -/
theorem stepCount_pause (c : Config) (value : Rat) :
    stepCount c (effectiveKind c .pause) value = stepCount c (effectiveKind c .forward) value := by
  unfold effectiveKind
  cases c.fixReversed <;> rfl

/-- Settles O27: PREPARE takes everything but the direction from the count; a due step counts and stamps in every class alike. -/
theorem pauseTakesTheTimeOfALinearMove : Obligations.PauseTakesTheTimeOfALinearMove := by
  refine ⟨fun s value us t h => ?_, fun s v ms us hv hk => ?_⟩
  · obtain ⟨hn, rfl⟩ := execPrepare_eq_next h
    rw [stepCount_pause] at hn
    refine ⟨_, execPrepare_of_fits hn us, ?_⟩
    rw [arm_eq, arm_eq, stepCount_pause]
    exact ⟨rfl, rfl, rfl, rfl, rfl⟩
  · by_cases h0 : s.steps = 0
    · exact ⟨_, _, execAdvance_idle h0 ms us, execAdvance_idle (by exact h0) ms us,
        rfl, rfl, rfl, rfl, rfl, rfl, rfl, rfl, rfl⟩
    by_cases hd : Due s us
    · exact ⟨_, _, execAdvance_coilless hd (.inl (congrArg kindClass hk)) ms,
        execAdvance_linear (v := v) (by exact hd) (by exact hv) rfl ms, rfl, rfl, rfl, rfl, rfl, rfl, rfl, rfl, rfl⟩
    · exact ⟨_, _, execAdvance_pending h0 hd ms, execAdvance_pending (by exact h0) (by exact hd) ms,
        rfl, rfl, rfl, rfl, rfl, rfl, rfl, rfl, rfl⟩

end Sys2Proof.Machine
end

section
/-! PROOFS. INTERVAL: the ramp of one step (41_action_engine.md R109, R120), and R118's closed form of a whole action as an
invariant of every step. -/

namespace Sys2Proof.Machine

open Sys2Proof.Claims

/-! ### The ramp of a step in each phase -/

theorem rampedInterval_accelerating {s : State} (h : s.accelUntil.toNat < s.steps.toNat) :
    ((rampedInterval s).toNat : Int) = ((s.interval.toNat : Int) - s.cfg.accelDelta) % 2 ^ 32 := by
  rw [rampedInterval_eq, if_pos (BitVec.lt_def.mpr h), BitVec.toNat_ofInt]
  omega

theorem rampedInterval_decelerating {s : State} (ha : s.steps.toNat ≤ s.accelUntil.toNat)
    (h : s.steps.toNat < s.decelBelow.toNat) :
    ((rampedInterval s).toNat : Int) = ((s.interval.toNat : Int) + s.cfg.decelDelta) % 2 ^ 32 := by
  rw [rampedInterval_eq, if_neg (BitVec.not_lt.mpr ha), if_pos (BitVec.lt_def.mpr h), BitVec.toNat_ofInt]
  omega

theorem rampedInterval_cruising {s : State} (ha : s.steps.toNat ≤ s.accelUntil.toNat)
    (hd : s.decelBelow.toNat ≤ s.steps.toNat) : rampedInterval s = s.interval := by
  rw [rampedInterval_eq, if_neg (BitVec.not_lt.mpr ha), if_neg (BitVec.not_lt.mpr hd)]

/-- Settles O32: a due step of any class stores the ramped interval. -/
theorem intervalRampOfAStep : Obligations.IntervalRampOfAStep := by
  intro s t ms us hd h
  obtain ⟨-, hinterval, -⟩ := execAdvance_due_registers hd h
  rw [hinterval]
  exact ⟨rampedInterval_accelerating, rampedInterval_decelerating, rampedInterval_cruising⟩

/-- Settles O33: without a wrap the ramp's integers are its words, and without a due step INTERVAL stays. -/
theorem intervalIsMonotoneInEachPhase : Obligations.IntervalIsMonotoneInEachPhase := by
  intro s t ms us hlow hhigh hphases h
  by_cases hd : Due s us
  · obtain ⟨haccel, hdecel, hcruise⟩ := intervalRampOfAStep s t ms us hd h
    refine ⟨fun hs => ?_, fun hs => ?_, hcruise⟩
    · have := haccel hs
      omega
    · have := hdecel (by omega) hs
      omega
  · have hkept : t.interval = s.interval := by rw [execAdvance_not_due hd h, putResult_interval]
    exact ⟨fun _ => by rw [hkept], fun _ => by rw [hkept], fun _ _ => hkept⟩

/-! ### The closed form of an action -/

/-- R118 speaks of the configuration and four registers. -/
theorem onRamp_of_frame {s t : State} {n : Nat} (h : OnRamp s n) (hcfg : t.cfg = s.cfg) (hsteps : t.steps = s.steps)
    (hinterval : t.interval = s.interval) (haccel : t.accelUntil = s.accelUntil) (hdecel : t.decelBelow = s.decelBelow) :
    OnRamp t n := by
  rw [OnRamp, hcfg, hsteps, hinterval, haccel, hdecel]
  exact h

/-- At step 0 the interval is the base interval. -/
theorem rampInterval_zero (base n : Nat) : rampInterval base n 0 = base := by
  have := accelSteps_add_decelBound_le n
  unfold rampInterval
  omega

/-- From one step to the next the closed form changes as the ramp of R109 does. -/
theorem rampInterval_succ (base n j : Nat) :
    rampInterval base n (j + 1) =
      if j < accelSteps n then rampInterval base n j - 2
      else if n < j + decelBound n then rampInterval base n j + 3
      else rampInterval base n j := by
  have := accelSteps_add_decelBound_le n
  unfold rampInterval
  split
  · omega
  · split <;> omega

/-- The closed form of an action's steps stays within 690 of the base interval (70_reset_and_hazards.md R152). -/
theorem rampInterval_bounds (base : Nat) {n j : Nat} (h : j ≤ n) :
    (base : Int) - 690 ≤ rampInterval base n j ∧ rampInterval base n j ≤ base + 690 := by
  have haccel : accelSteps n ≤ 345 := min_le_right _ _
  have hdecel : decelBound n ≤ 230 := min_le_right _ _
  unfold rampInterval
  omega

/-- PREPARE arms an action at the start of its ramp. -/
theorem onRamp_of_execPrepare {k : Kind} {value : Rat} {us : ClkWord} {s t : State} (hc : NoWrap s.cfg)
    (h : execPrepare k value us s = .next t) : OnRamp t t.steps.toNat := by
  obtain ⟨hprofile, -, hbase⟩ := hc
  obtain ⟨haccel, hdecel⟩ := execPrepare_thresholds hprofile h
  refine ⟨le_rfl, haccel, hdecel, ?_⟩
  obtain ⟨-, rfl⟩ := execPrepare_eq_next h
  rw [Nat.sub_self, rampInterval_zero, arm_eq, putResult_interval, putResult_cfg, BitVec.toNat_ofNat,
    Nat.mod_eq_of_lt (by rw [baseInterval, truncNat_eq]; omega)]
  rfl

/-- An ADVANCE writes neither the configuration nor a threshold. -/
theorem execAdvance_keeps_profile {ms us : ClkWord} {s t : State} (h : execAdvance ms us s = .next t) :
    t.cfg = s.cfg ∧ t.accelUntil = s.accelUntil ∧ t.decelBelow = s.decelBelow := by
  obtain ⟨-, rfl⟩ | ⟨-, -, rfl⟩ | ⟨-, right, left, ports, idx, rfl, -⟩ := execAdvance_eq_next h
  all_goals exact ⟨rfl, rfl, rfl⟩

/-- The ramp of a step leads from `I_j` to `I_(j+1)`: its three phases are those of the closed form, whose values do not wrap. -/
theorem rampedInterval_of_onRamp {s : State} {n : Nat} (hc : NoWrap s.cfg) (hr : OnRamp s n) (h0 : 0 < s.steps.toNat) :
    ((rampedInterval s).toNat : Int) =
      rampInterval ⌊(s.cfg.usPerS : Rat) / s.cfg.sps⌋₊ n (n - s.steps.toNat + 1) := by
  obtain ⟨⟨-, -, -, -, haccelDelta, hdecelDelta, -⟩, hlow, hhigh⟩ := hc
  obtain ⟨hsteps, haccel, hdecel, hinterval⟩ := hr
  have hnext := rampInterval_bounds ⌊(s.cfg.usPerS : Rat) / s.cfg.sps⌋₊ (show n - s.steps.toNat + 1 ≤ n by omega)
  rw [rampInterval_succ, ← hinterval] at hnext ⊢
  by_cases hfast : n - s.steps.toNat < accelSteps n
  · rw [if_pos hfast] at hnext ⊢
    rw [rampedInterval_accelerating (by omega), haccelDelta]
    omega
  by_cases hslow : n < n - s.steps.toNat + decelBound n
  · rw [if_neg hfast, if_pos hslow] at hnext ⊢
    rw [rampedInterval_decelerating (by omega) (by omega), hdecelDelta]
    omega
  · rw [if_neg hfast, if_neg hslow, rampedInterval_cruising (by omega) (by omega)]

/-- A due step takes the action one step along its ramp. -/
theorem onRamp_of_due {ms us : ClkWord} {s t : State} {n : Nat} (hc : NoWrap s.cfg) (hr : OnRamp s n) (hd : Due s us)
    (h : execAdvance ms us s = .next t) : OnRamp t n := by
  obtain ⟨hcount, hinterval, -⟩ := execAdvance_due_registers hd h
  obtain ⟨hcfg, haccel, hdecel⟩ := execAdvance_keeps_profile h
  have hramped := rampedInterval_of_onRamp hc hr (by omega)
  obtain ⟨hsteps, haccel', hdecel', -⟩ := hr
  rw [OnRamp, hcfg, haccel, hdecel, hinterval, hramped]
  exact ⟨by omega, haccel', hdecel', by congr 1; omega⟩

/-- Settles O52: with no step due nothing of the ramp is written. -/
theorem advanceKeepsActionOnItsRamp : Obligations.AdvanceKeepsActionOnItsRamp := by
  refine ⟨fun s t k value us hc h => onRamp_of_execPrepare hc h, fun s t n ms us hc _ _ hr h => ?_⟩
  by_cases hd : Due s us
  · exact onRamp_of_due hc hr hd h
  · rw [execAdvance_not_due hd h]
    exact onRamp_of_frame hr rfl rfl rfl rfl rfl

/-- INTERVAL follows the closed form of some step count while an action is in flight. -/
def RampForm (s : State) : Prop := s.steps ≠ 0 → ∃ n, n < 2 ^ 32 ∧ OnRamp s n

theorem RampForm.of_frame {s t : State} (h : RampForm s) (hcfg : t.cfg = s.cfg) (hsteps : t.steps = s.steps)
    (hinterval : t.interval = s.interval) (haccel : t.accelUntil = s.accelUntil) (hdecel : t.decelBelow = s.decelBelow) :
    RampForm t := by
  intro h0
  rw [hsteps] at h0
  obtain ⟨n, hn, hr⟩ := h h0
  exact ⟨n, hn, onRamp_of_frame hr hcfg hsteps hinterval haccel hdecel⟩

theorem exec_keeps_rampForm {i : Instr} {s t : State} (hc : NoWrap s.cfg) (hs : RampForm s) (h : exec i s = .next t) :
    RampForm t := by
  obtain ⟨harmed, hadvanced⟩ := advanceKeepsActionOnItsRamp
  cases i with
  | setWiring var =>
    obtain ⟨-, rfl⟩ := execSetWiring_eq_next h
    exact hs.of_frame rfl rfl rfl rfl rfl
  | initOutputs =>
    obtain ⟨-, -, rfl⟩ := execInitOutputs_eq_next h
    exact hs.of_frame rfl rfl rfl rfl rfl
  | setCoils right left =>
    obtain ⟨v, -, rfl⟩ := execSetCoils_eq_next h
    exact hs.of_frame rfl rfl rfl rfl rfl
  | disableCoils =>
    obtain ⟨v, -, rfl⟩ := execDisableCoils_eq_next h
    exact hs.of_frame rfl rfl rfl rfl rfl
  | prepare k value us => exact fun _ => ⟨t.steps.toNat, t.steps.isLt, harmed s t k value us hc h⟩
  | advance ms us =>
    intro h0
    obtain ⟨hkept, -⟩ := execAdvance_keeps_action h
    obtain ⟨n, hn, hr⟩ := hs (hkept h0)
    exact ⟨n, hn, hadvanced s t n ms us hc hn (hkept h0) hr h⟩
  | stop ms =>
    obtain rfl := execStop_eq_next (ms := ms) h
    exact fun h0 => absurd rfl h0

/-- Settles O53: an event received and another owner's port write touch no engine register; the rest is the operation's. -/
theorem stepKeepsRampForm : Obligations.StepKeepsRampForm := by
  intro s t hc hs h
  have hs : RampForm s := hs
  obtain ⟨-, ⟨-, rfl⟩ | ⟨p, v, rest, -, rfl⟩ | ⟨c, rest, i, -, -, hi⟩⟩ := step_next_cases h
  · exact hs
  · exact hs.of_frame rfl rfl rfl rfl rfl
  · have hs' : RampForm (dropEvent s) := hs.of_frame rfl rfl rfl rfl rfl
    exact exec_keeps_rampForm (s := dropEvent s) hc hs' hi

end Sys2Proof.Machine
end

section
/-! PROOFS. Where each operation faults (60_exceptions.md R132) and where it is refused (R133): one equivalence per meaning. -/

namespace Sys2Proof.Machine

open Sys2Proof.Claims

/-- The negation of `Booted`, in the words of R132. -/
theorem not_booted_iff (s : State) : (∀ v, ¬ Booted s v) ↔ s.wiring = .unbound ∨ s.outInit = false := by
  cases hw : s.wiring <;> simp [Booted, hw]

/-! ### The Coil Driver -/

theorem execSetWiring_ne_fault (v : Variant) (s : State) (r : Fault) : execSetWiring v s ≠ .fault r := by
  cases hw : s.wiring with
  | unbound => simp [execSetWiring_unbound hw]
  | bound w => simp [execSetWiring_bound hw]

theorem execSetWiring_eq_refused_iff (v : Variant) (s : State) (r : Refusal) :
    execSetWiring v s = .refused r ↔ r = .wiringRebind ∧ s.wiring ≠ .unbound := by
  cases hw : s.wiring with
  | unbound => simp [execSetWiring_unbound hw]
  | bound w => simp [execSetWiring_bound hw, eq_comm]

theorem execInitOutputs_eq_fault_iff (s : State) (r : Fault) :
    execInitOutputs s = .fault r ↔ r = .notInitialised ∧ s.wiring = .unbound := by
  cases hw : s.wiring with
  | unbound => simp [execInitOutputs_unbound hw, eq_comm]
  | bound v => cases ho : s.outInit <;> simp [execInitOutputs_bound hw, ho]

theorem execInitOutputs_eq_refused_iff (s : State) (r : Refusal) :
    execInitOutputs s = .refused r ↔ r = .outputsReinit ∧ s.wiring ≠ .unbound ∧ s.outInit = true := by
  cases hw : s.wiring with
  | unbound => simp [execInitOutputs_unbound hw]
  | bound v => cases ho : s.outInit <;> simp [execInitOutputs_bound hw, ho, eq_comm]

/-- SET_COILS has two answers: written on a booted block, a fault on any other. -/
theorem execSetCoils_eq_fault_iff (right left : Pattern) (s : State) (r : Fault) :
    execSetCoils right left s = .fault r ↔ r = .notInitialised ∧ (s.wiring = .unbound ∨ s.outInit = false) := by
  rw [← not_booted_iff]
  by_cases hn : ∀ v, ¬ Booted s v
  · rw [execSetCoils_unbooted hn, Host.Outcome.fault.injEq, and_iff_left hn, eq_comm]
  · obtain ⟨v, hv⟩ := not_forall_not.mp hn
    exact iff_of_false (by simp [execSetCoils_booted hv]) fun h => hn h.2

theorem execSetCoils_ne_refused (right left : Pattern) (s : State) (r : Refusal) : execSetCoils right left s ≠ .refused r := by
  by_cases hn : ∀ v, ¬ Booted s v
  · simp [execSetCoils_unbooted hn]
  · obtain ⟨v, hv⟩ := not_forall_not.mp hn
    simp [execSetCoils_booted hv]

/-- DISABLE_COILS is the coil write of two empty patterns (41_action_engine.md R124). -/
theorem execDisableCoils_eq_setCoils (s : State) : execDisableCoils s = execSetCoils 0 0 s := rfl

/-! ### The Action Execution Engine -/

theorem execPrepare_eq_fault_iff (k : Kind) (value : Rat) (us : ClkWord) (s : State) (r : Fault) :
    execPrepare k value us s = .fault r ↔
      r = .stepCountOverflow ∧ 2 ^ 32 ≤ countOf s.cfg (kindUnder s.cfg.fixReversed k) value := by
  rw [← effectiveKind_eq, ← stepCount_eq]
  by_cases h : 2 ^ 32 ≤ stepCount s.cfg (effectiveKind s.cfg k) value
  · rw [execPrepare_of_overflow h, Host.Outcome.fault.injEq, and_iff_left h, eq_comm]
  · exact iff_of_false (by simp [execPrepare_of_fits (not_le.mp h)]) fun hr => h hr.2

theorem execPrepare_ne_refused (k : Kind) (value : Rat) (us : ClkWord) (s : State) (r : Refusal) :
    execPrepare k value us s ≠ .refused r := by
  by_cases h : 2 ^ 32 ≤ stepCount s.cfg (effectiveKind s.cfg k) value
  · simp [execPrepare_of_overflow h]
  · simp [execPrepare_of_fits (not_le.mp h)]

/-- An ADVANCE that answers no next state was due for a linear or turn step on a block that is not booted. -/
theorem due_of_execAdvance_stops {ms us : ClkWord} {s : State} (h : ∀ t, execAdvance ms us s ≠ .next t) :
    Due s us ∧ (∀ v, ¬ Booted s v) ∧ (kindClass s.actKind = .linear ∨ kindClass s.actKind = .turn) := by
  obtain ⟨-, e⟩ | ⟨-, -, e⟩ | ⟨hd, -⟩ := execAdvance_cases ms us s
  · exact absurd e (h _)
  · exact absurd e (h _)
  · cases hk : kindClass s.actKind with
    | linear => exact ⟨hd, fun v hv => h _ (execAdvance_linear hd hv hk ms), .inl rfl⟩
    | turn => exact ⟨hd, fun v hv => h _ (execAdvance_turn hd hv hk ms), .inr rfl⟩
    | pause => exact absurd (execAdvance_coilless hd (.inl hk) ms) (h _)
    | invalid => exact absurd (execAdvance_coilless hd (.inr hk) ms) (h _)

theorem execAdvance_eq_fault_iff (ms us : ClkWord) (s : State) (r : Fault) :
    execAdvance ms us s = .fault r ↔ r = .notInitialised ∧ (s.wiring = .unbound ∨ s.outInit = false) ∧ Due s us ∧
      (linearKind s.actKind ∨ turnKind s.actKind) := by
  rw [← not_booted_iff, ← kindClass_linear_iff, ← kindClass_turn_iff]
  constructor
  · intro h
    have hstop : ∀ t, execAdvance ms us s ≠ .next t := by simp [h]
    obtain ⟨hd, hn, hk⟩ := due_of_execAdvance_stops hstop
    rw [execAdvance_unbooted hd hn hk, Host.Outcome.fault.injEq] at h
    exact ⟨h.symm, hn, hd, hk⟩
  · rintro ⟨rfl, hn, hd, hk⟩
    exact execAdvance_unbooted hd hn hk ms

theorem execAdvance_ne_refused (ms us : ClkWord) (s : State) (r : Refusal) : execAdvance ms us s ≠ .refused r := by
  intro h
  have hstop : ∀ t, execAdvance ms us s ≠ .next t := by simp [h]
  obtain ⟨hd, hn, hk⟩ := due_of_execAdvance_stops hstop
  simp [execAdvance_unbooted hd hn hk] at h

/-! ### The tables of R132 and R133 -/

/-- A coil write reaches the block: SET_COILS, DISABLE_COILS, or a due step of a linear or turn action (40_coil_driver.md R85). -/
def WritesCoils (i : Instr) (s : State) : Prop :=
  (∃ r l, i = .setCoils r l) ∨ i = .disableCoils ∨
    (∃ ms us, i = .advance ms us ∧ Due s us ∧ (linearKind s.actKind ∨ turnKind s.actKind))

/-- R132 in one equivalence: code 1 from INIT_OUTPUTS and from a coil write, code 2 from PREPARE. -/
theorem exec_eq_fault_iff (i : Instr) (s : State) (r : Fault) : exec i s = .fault r ↔
    (r = .notInitialised ∧
      ((i = .initOutputs ∧ s.wiring = .unbound) ∨ ((s.wiring = .unbound ∨ s.outInit = false) ∧ WritesCoils i s))) ∨
    (r = .stepCountOverflow ∧
      ∃ k value us, i = .prepare k value us ∧ 2 ^ 32 ≤ countOf s.cfg (kindUnder s.cfg.fixReversed k) value) := by
  cases i with
  | setWiring v => simp [exec, WritesCoils, execSetWiring_ne_fault]
  | initOutputs => simp [exec, WritesCoils, execInitOutputs_eq_fault_iff]
  | setCoils right left => simp [exec, WritesCoils, execSetCoils_eq_fault_iff]
  | disableCoils => simp [exec, WritesCoils, execDisableCoils_eq_setCoils, execSetCoils_eq_fault_iff]
  | prepare k value us => simp [exec, WritesCoils, execPrepare_eq_fault_iff]
  | advance ms us => simp [exec, WritesCoils, execAdvance_eq_fault_iff]
  | stop ms => simp [exec, WritesCoils, execStop]

/-- R133 for the operations: code 3 from SET_WIRING, code 4 from INIT_OUTPUTS, and no other refusal. -/
theorem exec_eq_refused_iff (i : Instr) (s : State) (r : Refusal) : exec i s = .refused r ↔
    (r = .wiringRebind ∧ s.wiring ≠ .unbound ∧ ∃ v, i = .setWiring v) ∨
    (r = .outputsReinit ∧ s.wiring ≠ .unbound ∧ s.outInit = true ∧ i = .initOutputs) := by
  cases i with
  | setWiring v => simp [exec, execSetWiring_eq_refused_iff]
  | initOutputs => simp [exec, execInitOutputs_eq_refused_iff]
  | setCoils right left => simp [exec, execSetCoils_ne_refused]
  | disableCoils => simp [exec, execDisableCoils_eq_setCoils, execSetCoils_ne_refused]
  | prepare k value us => simp [exec, execPrepare_ne_refused]
  | advance ms us => simp [exec, execAdvance_ne_refused]
  | stop ms => simp [exec, execStop]

end Sys2Proof.Machine
end

section
/-! PROOFS. The marks FAULT and REFUSED (60_exceptions.md R132 to R135): what a stopping step records, and that a stopped block
stays as it is. -/

namespace Sys2Proof.Machine

open Sys2Proof.Claims

/-! ### A stopped block -/

theorem stopped_eq_false {s : State} (hf : s.fault = none) (hr : s.refused = none) : stopped s = false := by
  simp [stopped, hf, hr]

/-- A stopped block has no successor: only a live block steps. -/
theorem step_ne_next_of_stopped {s : State} (h : stopped s = true) (t : State) : step s ≠ .next t := by
  intro ht
  obtain ⟨⟨hf, hr, -⟩, -⟩ := step_next_cases ht
  simp [stopped_eq_false hf hr] at h

theorem runSteps_of_stopped {s : State} (h : stopped s = true) (k : Nat) : runSteps k s = s := by
  induction k with
  | zero => rfl
  | succ k ih => rw [runSteps, runStep, if_pos h, ih]

/-! ### The run of a stopping step -/

theorem runStep_of_fault {s : State} {r : Fault} (hf : s.fault = none) (hr : s.refused = none) (h : step s = .fault r) :
    runStep s = recordFault s r := by
  rw [runStep, stopped_eq_false hf hr, h, if_neg Bool.false_ne_true]

theorem runStep_of_refused {s : State} {r : Refusal} (hf : s.fault = none) (hr : s.refused = none)
    (h : step s = .refused r) : runStep s = recordRefusal s r := by
  rw [runStep, stopped_eq_false hf hr, h, if_neg Bool.false_ne_true]

theorem headCommand_of_stream_cons {s : State} {c : Command} {rest : List HostEvent} (hs : s.stream = .command c :: rest) :
    headCommand s = some c := by
  rw [headCommand, hs]

/-- Every refusal but that of the configuration records the word of the operation it stands on. -/
theorem refusedWord_of_ne {s : State} {r : Refusal} (h : r ≠ .badConfiguration) :
    refusedWord s r = (headCommand s).map Command.word := by
  unfold refusedWord
  split
  · exact absurd rfl h
  · rfl

/-! ### Where a step stops -/

/-- A live block stops on an operation only: with nothing issued, and at another owner's write, it goes on. -/
theorem stream_eq_command_of_stop {s : State} (hl : Live s) (h : ∀ t, step s ≠ .next t) :
    ∃ c rest, s.stream = .command c :: rest := by
  cases hs : s.stream with
  | nil => exact absurd (step_nil hl hs) (h s)
  | cons e rest =>
    cases e with
    | command c => exact ⟨c, rest, rfl⟩
    | otherOwnerWrite p v => exact absurd (step_otherOwnerWrite hl hs) (h _)

theorem step_of_illegal {s : State} (hf : s.fault = none) (hr : s.refused = none) (hc : configLegal s.cfg = false) :
    step s = .refused .badConfiguration := by
  simp [step, fetch, hf, hr, hc]

/-- A refusal on a live block is the decoder's or the operation's. -/
theorem step_eq_refused_iff {s : State} {c : Command} {rest : List HostEvent} (hl : Live s)
    (hs : s.stream = .command c :: rest) (r : Refusal) : step s = .refused r ↔
      (∃ e, decode c = .error e ∧ r = refusalOfDecode e) ∨
        ∃ i, decode c = .ok i ∧ exec i (dropEvent s) = .refused r := by
  rw [step_command hl hs]
  cases decode c <;> simp [eq_comm]

theorem refusalOfDecode_inj {e e' : DecodeRefusal} : refusalOfDecode e = refusalOfDecode e' ↔ e = e' := by
  cases e <;> cases e' <;> simp [refusalOfDecode]

/-- A live block gives a refusal of the decoder exactly when the decoder does: no operation has one of these. -/
theorem step_eq_refusalOfDecode_iff {s : State} {c : Command} {rest : List HostEvent} (hl : Live s)
    (hs : s.stream = .command c :: rest) (e : DecodeRefusal) :
    step s = .refused (refusalOfDecode e) ↔ decode c = .error e := by
  rw [step_eq_refused_iff hl hs]
  constructor
  · rintro (⟨e', he, heq⟩ | ⟨i, -, hi⟩)
    · exact he.trans (congrArg _ (refusalOfDecode_inj.mp heq).symm)
    · cases e <;> simp [refusalOfDecode, exec_eq_refused_iff] at hi
  · exact fun he => .inl ⟨e, he, rfl⟩

/-- BadConfiguration comes from the configuration alone: neither the decoder nor an operation has it. -/
theorem step_ne_badConfiguration {s : State} (hl : Live s) : step s ≠ .refused .badConfiguration := by
  intro h
  obtain ⟨c, rest, hs⟩ := stream_eq_command_of_stop hl (by simp [h])
  obtain ⟨e, -, he⟩ | ⟨i, -, hi⟩ := (step_eq_refused_iff hl hs _).mp h
  · cases e <;> cases he
  · simp [exec_eq_refused_iff] at hi

/-! ### The obligations -/

/-- Settles O10: a live block faults on an operation, the run writes the mark alone, and a mark stops the block. -/
theorem faultIsFinal : Obligations.FaultIsFinal := by
  intro s r hl h
  obtain ⟨c, rest, hs⟩ := stream_eq_command_of_stop hl (by simp [h])
  obtain ⟨hf, hr, -⟩ := hl
  have hrun := runStep_of_fault hf hr h
  have hstop : stopped (runStep s) = true := by simp [hrun, stopped]
  refine ⟨hrun, ⟨c, headCommand_of_stream_cons hs⟩, step_ne_next_of_stopped hstop, runSteps_of_stopped hstop, ?_⟩
  rintro ⟨-, -, hnone, -⟩
  simp [hrun] at hnone

/-- Settles O11: the run writes the mark alone, and a mark stops the block; a refusal other than BadConfiguration means that the
configuration is legal, so the block was live and stood on an operation. -/
theorem refusalIsFinal : Obligations.RefusalIsFinal := by
  refine ⟨fun s r hf hr h => ?_, fun s => step_of_illegal⟩
  have hrun := runStep_of_refused hf hr h
  have hstop : stopped (runStep s) = true := by simp [hrun, stopped]
  refine ⟨⟨refusedWord s r, hrun, fun hne => ?_⟩, step_ne_next_of_stopped hstop, runSteps_of_stopped hstop⟩
  cases hc : configLegal s.cfg with
  | false =>
    rw [step_of_illegal hf hr hc, Host.Outcome.refused.injEq] at h
    exact absurd h.symm hne
  | true =>
    obtain ⟨c, rest, hs⟩ := stream_eq_command_of_stop ⟨hf, hr, hc⟩ (by simp [h])
    have hhead := headCommand_of_stream_cons hs
    exact ⟨c, hhead, by rw [refusedWord_of_ne hne, hhead, Option.map_some]⟩

/-- Settles O43: both clauses are the table of R132 read at one code; the record is the mark's. -/
theorem faultsExactlyAsListed : Obligations.FaultsExactlyAsListed := by
  refine ⟨⟨rfl, rfl⟩, fun i s => ?_, fun i s => ?_, fun s c rest i r hl hs hd h => ?_⟩
  · simp [exec_eq_fault_iff, WritesCoils]
  · simp [exec_eq_fault_iff]
  · have ⟨hf, hr, _⟩ := hl
    have hstep : step s = .fault r := (stepRunsDecodedOperation s c rest i hl hs hd).trans h
    rw [runStep_of_fault hf hr hstep, recordFault_fault, headCommand_of_stream_cons hs]

/-- Settles O44: an operation's refusals are the table of R133; the decoder's are O3's, and the configuration's is checked before
the stream. -/
theorem refusalsExactlyAsListed : Obligations.RefusalsExactlyAsListed := by
  refine ⟨⟨rfl, rfl, rfl, rfl, rfl⟩, exec_eq_refused_iff, fun s c rest hl hs => ?_, fun s hf hr => ?_,
    fun s c rest r hl hs h => ?_⟩
  · obtain ⟨hopcode, hfield, -⟩ := decoderRefusesExactlyReserved c
    exact ⟨(step_eq_refusalOfDecode_iff hl hs .reservedOpcode).trans hopcode,
      (step_eq_refusalOfDecode_iff hl hs .reservedField).trans hfield⟩
  · refine ⟨fun h => ?_, step_of_illegal hf hr⟩
    exact Bool.eq_false_iff.mpr fun hc => step_ne_badConfiguration ⟨hf, hr, hc⟩ h
  · have ⟨hf, hr, _⟩ := hl
    have hne : r ≠ .badConfiguration := fun e => step_ne_badConfiguration hl (e ▸ h)
    rw [runStep_of_refused hf hr h, recordRefusal_refused, refusedWord_of_ne hne, headCommand_of_stream_cons hs,
      Option.map_some]

end Sys2Proof.Machine
end

section
/-! PROOFS. Reset and boot (70_reset_and_hazards.md R147, R148): what every step keeps of the configuration, WIRING and OUT_INIT,
and the sequence that boots the block after reset. -/

namespace Sys2Proof.Machine

open Sys2Proof.Claims

/-! ### The boot state -/

/-- Between `s` and `t` the configuration is fixed, a bound variant and initialised outputs stay, and outputs are not initialised
without a bound variant unless they were before (10_state.md R33 to R35): the conclusion of O51. -/
def BootStateKept (s t : State) : Prop :=
  t.cfg = s.cfg ∧ (∀ v, s.wiring = .bound v → t.wiring = .bound v) ∧ (s.outInit = true → t.outInit = true) ∧
    ((s.outInit = true → s.wiring ≠ .unbound) → (t.outInit = true → t.wiring ≠ .unbound))

theorem BootStateKept.of_frame {s t : State} (hcfg : t.cfg = s.cfg) (hw : t.wiring = s.wiring) (ho : t.outInit = s.outInit) :
    BootStateKept s t := by
  rw [BootStateKept, hw, ho]
  exact ⟨hcfg, fun _ => id, id, id⟩

theorem wiring_ne_unbound_iff (s : State) : s.wiring ≠ .unbound ↔ ∃ v, s.wiring = .bound v := by
  cases s.wiring <;> simp

/-- OUT_INIT is left, or set under a bound variant: INIT_OUTPUTS is its only writer (10_state.md R21; 40_coil_driver.md R83). -/
theorem exec_outInit_cases {i : Instr} {s t : State} (h : exec i s = .next t) :
    t.outInit = s.outInit ∨ (t.outInit = true ∧ s.wiring ≠ .unbound) := by
  cases i with
  | initOutputs =>
    obtain ⟨hbound, -, rfl⟩ := execInitOutputs_eq_next h
    exact .inr ⟨rfl, (wiring_ne_unbound_iff s).mpr hbound⟩
  | _ => exact .inl (RegValue.flag.inj (registersWrittenOnlyAsListed _ s t .outInit h rfl))

theorem exec_keeps_wiring_ne_unbound {i : Instr} {s t : State} (hw : s.wiring ≠ .unbound) (h : exec i s = .next t) :
    t.wiring ≠ .unbound := by
  obtain ⟨v, hv⟩ := (wiring_ne_unbound_iff s).mp hw
  exact (wiring_ne_unbound_iff t).mpr ⟨v, exec_keeps_bound hv h⟩

theorem exec_keeps_bootState {i : Instr} {s t : State} (h : exec i s = .next t) : BootStateKept s t := by
  obtain ⟨hcfg, -⟩ := operationsKeepConfigurationMarksAndStream i s t h
  refine ⟨hcfg, fun v hv => exec_keeps_bound hv h, fun hs => ?_, fun hs ht => exec_keeps_wiring_ne_unbound ?_ h⟩
  · obtain hkept | ⟨hset, -⟩ := exec_outInit_cases h
    · exact hkept.trans hs
    · exact hset
  · obtain hkept | ⟨-, hbound⟩ := exec_outInit_cases h
    · exact hs (hkept.symm.trans ht)
    · exact hbound

/-- Settles O51: nothing issued and another owner's write leave all three, and an operation keeps them as R147 says. -/
theorem stepKeepsBootState : Obligations.StepKeepsBootState := by
  intro s t h
  obtain ⟨-, ⟨-, rfl⟩ | ⟨p, v, rest, -, rfl⟩ | ⟨c, rest, i, -, -, hi⟩⟩ := step_next_cases h
  · exact BootStateKept.of_frame rfl rfl rfl
  · exact BootStateKept.of_frame rfl rfl rfl
  · exact exec_keeps_bootState (s := dropEvent s) hi

/-! ### The boot sequence -/

/-- SET_WIRING then INIT_OUTPUTS complete where no variant is bound and the outputs are not initialised, and write WIRING and
OUT_INIT alone. -/
theorem execAll_bootSequence {s : State} (hw : s.wiring = .unbound) (ho : s.outInit = false) (v : Variant) :
    execAll (bootSequence v) s = .next (putResult (putOutInit (putResult (putWiring s v) none)) none) := by
  have hinit : execInitOutputs (putResult (putWiring s v) none) =
      .next (putResult (putOutInit (putResult (putWiring s v) none)) none) :=
    (execInitOutputs_bound rfl).trans (if_neg (by simp [ho]))
  simp only [bootSequence, execAll, exec, execSetWiring_unbound hw, andThen_next, hinit]

/-- DISABLE_COILS on a booted block completes with both coil registers 0, shown on the ports (41_action_engine.md R124;
20_memory.md R48). -/
theorem exec_disableCoils_shown {s : State} {v : Variant} (hv : Booted s v) (hc : configLegal s.cfg = true)
    (hp : portsWf s.cfg s.ports = true) :
    ∃ t, exec .disableCoils s = .next t ∧ t.coilR = 0 ∧ t.coilL = 0 ∧ CoilsShown t v := by
  obtain ⟨-, hnext, -⟩ := disableCoilsMeaning
  have hexec := hnext s v hv
  exact ⟨_, hexec, rfl, rfl, (execDisableCoils_coilsWritten hexec).coilsShown hc hp hv.1 rfl⟩

/-- Settles O46: reset leaves WIRING and OUT_INIT as the sequence needs them, and a well-formed port space that it keeps. -/
theorem bootSequenceBoots : Obligations.BootSequenceBoots := by
  intro c v hc
  exact ⟨_, execAll_bootSequence rfl rfl v, ⟨rfl, rfl⟩, exec_disableCoils_shown ⟨rfl, rfl⟩ hc (portsWf_resetWith c)⟩

end Sys2Proof.Machine
end

section
/-! PROOFS. PREPARE in every configuration (41_action_engine.md R93, log 14), and the actions of zero steps (R96, R127). -/

namespace Sys2Proof.Machine

open Sys2Proof.Claims

/-- Settles O21: the model's thresholds and base interval are the floors of R101 to R103, which the words cut to 32 bits. -/
theorem prepareMeaning : Obligations.PrepareMeaning := by
  refine ⟨decode_eq_prepare_iff, fun s kind value us => ?_⟩
  simp only [← effectiveKind_eq, ← stepCount_eq]
  refine ⟨fun hn => ?_, fun hn => execPrepare_of_overflow hn us⟩
  obtain ⟨hstart, hstep⟩ := armDirection_registers (effectiveKind s.cfg kind) s
  refine (execPrepare_of_fits hn us).trans ?_
  rw [arm_eq, hstart, hstep, accelThreshold, decelThreshold, baseInterval]
  simp only [minRat_eq, truncNat_eq]
  rfl

/-! ### Actions of zero steps -/

/-- The mirror leaves KIND 7 as it is (41_action_engine.md R94). -/
theorem kindUnder_invalid (fixReversed : Bool) : kindUnder fixReversed .invalid = .invalid := by
  cases fixReversed <;> rfl

/-- A PREPARE of zero steps always completes, with STEPS = 0 and the kind and direction of R93. -/
theorem exec_prepare_of_countOf_eq_zero {s : State} {k : Kind} {value : Rat}
    (h : countOf s.cfg (kindUnder s.cfg.fixReversed k) value = 0) (us : ClkWord) :
    ∃ t, exec (.prepare k value us) s = .next t ∧ t.steps = 0 ∧ t.actKind = kindUnder s.cfg.fixReversed k ∧
      t.seqStart = startOf (kindUnder s.cfg.fixReversed k) s.seqStart ∧
      t.seqStep = stepOf (kindUnder s.cfg.fixReversed k) s.seqStep := by
  obtain ⟨-, hprepare⟩ := prepareMeaning
  obtain ⟨hfits, -⟩ := hprepare s k value us
  exact ⟨_, hfits (h ▸ by decide), congrArg (BitVec.ofNat 32) h, rfl, rfl, rfl⟩

/-- Settles O25: KIND 7 counts no step under either setting of the mirror, and with STEPS = 0 an ADVANCE is idle. -/
theorem zeroStepActionsAreIdle : Obligations.ZeroStepActionsAreIdle := by
  refine ⟨fun s value us => ?_, fun s k value us ms us' h => ?_⟩
  · have hkind := kindUnder_invalid s.cfg.fixReversed
    obtain ⟨t, hnext, hsteps, hk, hstart, hstep⟩ :=
      exec_prepare_of_countOf_eq_zero (value := value) (congrArg (countOf s.cfg · value) hkind) us
    rw [hkind] at hk hstart hstep
    exact ⟨t, hnext, hsteps, hk, hstart, hstep⟩
  · obtain ⟨t, hnext, hsteps, -⟩ := exec_prepare_of_countOf_eq_zero h us
    exact ⟨t, hnext, hsteps, execAdvance_idle hsteps ms us'⟩

end Sys2Proof.Machine
end
